-- ==== Sys2Proof/Word.lean ====
section
/-! DEFINITION. The widths of the block's values (00_scope.md R7, R9) and nothing else. -/

namespace Sys2Proof

/-- An 8-bit value: a data byte or a character code (00_scope.md R7, R12). -/
abbrev Byte := BitVec 8

/-- A 40-bit command or response word (30_encoding.md R60, R66). -/
abbrev Word := BitVec 40

/-- A 6-bit slice, which is an alphabet index (40_encoder.md R81). -/
abbrev Index := BitVec 6

/-- The 24-bit accumulator of a group (40_encoder.md R80, 41_decoder.md R107). -/
abbrev Acc := BitVec 24

/-- The padding character `=` (00_scope.md R7, R12). -/
abbrev padChar : Byte := 0x3D#8

end Sys2Proof
end

