-- ==== Sys2Proof/Syntax.lean ====
section
/-! DEFINITION. The commands of B64CMD v1, one constructor for each row of spec/opcode_table.json. -/

namespace Sys2Proof

/-- A command with its operands. The bits the spec ignores (30_encoding.md R65) are no operands, so a command does not
hold them. -/
inductive Instr where
  /-- ENC1: encode a final group of one byte (40_encoder.md R87). -/
  | enc1 (b0 : Byte)
  /-- ENC2: encode a final group of two bytes (40_encoder.md R86). -/
  | enc2 (b0 b1 : Byte)
  /-- ENC3: encode a full group of three bytes (40_encoder.md R85). -/
  | enc3 (b0 b1 b2 : Byte)
  /-- DEC: decode a group that is not the final one (41_decoder.md R110). `text` holds the `m` characters supplied. -/
  | dec (text : List Byte)
  /-- DECL: decode the final group of a text (41_decoder.md R111). `text` holds the `m` characters supplied. -/
  | decl (text : List Byte)
deriving DecidableEq, Repr

/-- The name of a command in spec/opcode_table.json. -/
def Instr.mnemonic : Instr → String
  | .enc1 _ => "ENC1"
  | .enc2 _ _ => "ENC2"
  | .enc3 _ _ _ => "ENC3"
  | .dec _ => "DEC"
  | .decl _ => "DECL"

end Sys2Proof
end

