-- ==== Sys2Proof/WellFormed.lean ====
section
/-! DEFINITION. The check a command must pass to have an encoding. -/

namespace Sys2Proof

/-- `m` is 1 to 4 (30_encoding.md R63); the bytes of an encoder command need no check. -/
def Instr.wellFormed : Instr → Bool
  | .enc1 _ => true
  | .enc2 _ _ => true
  | .enc3 _ _ _ => true
  | .dec text => decide (1 ≤ text.length) && decide (text.length ≤ 4)
  | .decl text => decide (1 ≤ text.length) && decide (text.length ≤ 4)

end Sys2Proof
end

