-- ==== Sys2Proof/Decode.lean ====
section
/-! DEFINITION. Command words to commands and back (30_encoding.md R60 to R69). Decoding is total over all words and
rejects a reserved word by a name that says why it is reserved. -/

namespace Sys2Proof

/-- Why a word is reserved (30_encoding.md R62, R63, R68). -/
inductive Reserved where
  /-- An encoder word with `n = 0`. -/
  | encoderCount
  /-- An encoder word with a nonzero bit in [37:34]. -/
  | encoderBits
  /-- A decoder word with a nonzero bit in [37:36] or [34]. -/
  | decoderBits
  /-- `op` is 10 or 11. -/
  | op
deriving DecidableEq, Repr

/-- The classes of 30_encoding.md R67. -/
inductive CommandClass where
  | enc1 | enc2 | enc3 | dec | decl | rsvd
deriving DecidableEq, Repr

/-! ### Fields of a command word (30_encoding.md R60 to R64) -/

/-- `cmd[39:38]`. -/
def opField (w : Word) : BitVec 2 := w.extractLsb' 38 2

/-- `cmd[39:32]`. -/
def controlByte (w : Word) : Byte := w.extractLsb' 32 8

/-- The encoder's reserved field `cmd[37:34]`. -/
def encoderRsv (w : Word) : BitVec 4 := w.extractLsb' 34 4

/-- The encoder's `n` and the decoder's `mm`, `cmd[33:32]`. -/
def countField (w : Word) : BitVec 2 := w.extractLsb' 32 2

/-- The decoder's reserved fields are zero: `cmd[37:36] = 00` and `cmd[34] = 0`. -/
def decoderRsvZero (w : Word) : Bool := w.extractLsb' 36 2 == 0#2 && w.extractLsb' 34 1 == 0#1

/-- `L = cmd[35]`. -/
def finalFlag (w : Word) : Bool := w.getLsbD 35

/-- Encoder byte `bj = cmd[23-8j : 16-8j]`, j = 0, 1, 2. -/
def encoderByte (w : Word) (j : Nat) : Byte := w.extractLsb' (16 - 8 * j) 8

/-- Decoder character `ck = cmd[31-8k : 24-8k]`, k = 0, 1, 2, 3. -/
def decoderChar (w : Word) (k : Nat) : Byte := w.extractLsb' (24 - 8 * k) 8

/-- `m = zext_3(cmd[33:32]) + 1`. -/
def suppliedCount (w : Word) : Nat := (countField w).toNat + 1

/-- The characters supplied, `c0` to `c(m-1)`. Those past `m` are ignored (30_encoding.md R65). -/
def suppliedText (w : Word) : List Byte :=
  [decoderChar w 0, decoderChar w 1, decoderChar w 2, decoderChar w 3].take (suppliedCount w)

/-! ### Decoding -/

/-- An encoder word, `op = 00` (30_encoding.md R62). -/
def decodeEncoder (w : Word) : Except Reserved Instr :=
  if encoderRsv w ≠ 0#4 then .error .encoderBits
  else if countField w = 1#2 then .ok (.enc1 (encoderByte w 0))
  else if countField w = 2#2 then .ok (.enc2 (encoderByte w 0) (encoderByte w 1))
  else if countField w = 3#2 then .ok (.enc3 (encoderByte w 0) (encoderByte w 1) (encoderByte w 2))
  else .error .encoderCount

/-- A decoder word, `op = 01` (30_encoding.md R63). -/
def decodeDecoder (w : Word) : Except Reserved Instr :=
  if decoderRsvZero w then
    if finalFlag w then .ok (.decl (suppliedText w)) else .ok (.dec (suppliedText w))
  else .error .decoderBits

/-- The command a word stands for, or why the word is reserved (30_encoding.md R61, R67, R68). -/
def decode (w : Word) : Except Reserved Instr :=
  if opField w = 0#2 then decodeEncoder w
  else if opField w = 1#2 then decodeDecoder w
  else .error .op

/-! ### The opcode map as a table (30_encoding.md R67) -/

/-- One row of the match and mask list of 30_encoding.md R67, over the control byte. -/
structure OpcodeRow where
  cls : CommandClass
  pattern : Byte
  mask : Byte
deriving DecidableEq, Repr

/-- The five rows. -/
def opcodeRows : List OpcodeRow :=
  [⟨.enc1, 0x01#8, 0xFF#8⟩, ⟨.enc2, 0x02#8, 0xFF#8⟩, ⟨.enc3, 0x03#8, 0xFF#8⟩,
   ⟨.dec, 0x40#8, 0xFC#8⟩, ⟨.decl, 0x48#8, 0xFC#8⟩]

/-- A control byte matches a row. -/
def OpcodeRow.accepts (r : OpcodeRow) (ctl : Byte) : Bool := ctl &&& r.mask == r.pattern

/-- The class of a control byte: that of the row it matches, RSVD when it matches none. -/
def classifyControl (ctl : Byte) : CommandClass :=
  match opcodeRows.find? (fun r => r.accepts ctl) with
  | some r => r.cls
  | none => .rsvd

/-- `classify(cmd)` of 30_encoding.md R67. -/
def classify (w : Word) : CommandClass := classifyControl (controlByte w)

/-- The class of a decoded word. -/
def Instr.cls : Instr → CommandClass
  | .enc1 _ => .enc1
  | .enc2 _ _ => .enc2
  | .enc3 _ _ _ => .enc3
  | .dec _ => .dec
  | .decl _ => .decl

/-! ### Encoding -/

/-- The control byte of a command (30_encoding.md R70). -/
def Instr.control : Instr → Byte
  | .enc1 _ => 0x01#8
  | .enc2 _ _ => 0x02#8
  | .enc3 _ _ _ => 0x03#8
  | .dec text => 0x40#8 ||| BitVec.ofNat 8 (text.length - 1)
  | .decl text => 0x48#8 ||| BitVec.ofNat 8 (text.length - 1)

/-- The character lanes of a text operand; characters past its end are 0x00 (30_encoding.md R70). -/
def textLanes (text : List Byte) : BitVec 32 :=
  text.getD 0 0#8 ++ text.getD 1 0#8 ++ text.getD 2 0#8 ++ text.getD 3 0#8

/-- The data field of a command, every ignored field zero (30_encoding.md R70). -/
def Instr.din : Instr → BitVec 32
  | .enc1 b0 => 0x00#8 ++ b0 ++ 0x00#8 ++ 0x00#8
  | .enc2 b0 b1 => 0x00#8 ++ b0 ++ b1 ++ 0x00#8
  | .enc3 b0 b1 b2 => 0x00#8 ++ b0 ++ b1 ++ b2
  | .dec text => textLanes text
  | .decl text => textLanes text

/-- The word of a well-formed command, as the assembler makes it (30_encoding.md R70). -/
def encode (i : Instr) : Word := i.control ++ i.din

/-- The bits of a decoder word that are not ignored: the control byte and the first m characters (30_encoding.md R65). -/
def suppliedMask (m : Nat) : Word :=
  if m ≤ 1 then 0xFFFF000000#40
  else if m = 2 then 0xFFFFFF0000#40
  else if m = 3 then 0xFFFFFFFF00#40
  else 0xFFFFFFFFFF#40

/-- The bits of a command's word that it does not ignore (30_encoding.md R65). -/
def Instr.usedMask : Instr → Word
  | .enc1 _ => 0xFF00FF0000#40
  | .enc2 _ _ => 0xFF00FFFF00#40
  | .enc3 _ _ _ => 0xFF00FFFFFF#40
  | .dec text => suppliedMask text.length
  | .decl text => suppliedMask text.length

/-- The word with the bits its command ignores set to zero (30_encoding.md R65, R71); a reserved word as it stands. -/
def canonicalWord (w : Word) : Word :=
  match decode w with
  | .ok i => encode i
  | .error _ => w

/-! ### The host's view of the opcode table -/

/-- The command word whose bits are `w`, as spec/opcode_table.json numbers them; bits at and above `nbits` are zero. -/
def tableWord (nbits w : Nat) : Word := BitVec.ofNat 40 (w % 2 ^ nbits)

/-- What the decoder reads from such a word; `none` for a reserved word. -/
def decodeTableWord (nbits w : Nat) : Option Instr :=
  match decode (tableWord nbits w) with
  | .ok i => some i
  | .error _ => none

end Sys2Proof
end

