-- ==== Sys2Proof/Machine/Rom.lean ====
section
/-! DEFINITION. The two read-only tables (20_memory.md R40 to R45). -/

namespace Sys2Proof.Machine

/-- An entry of INV (20_memory.md R40). -/
inductive InvEntry where
  /-- The code is the alphabet character of this index. -/
  | idx (i : Index)
  /-- The code is `=`. -/
  | pad
  /-- Any other code. -/
  | bad
deriving DecidableEq, Repr

/-- FWD, the alphabet ROM (20_memory.md R41; codes log 13). -/
def fwd (i : Index) : Byte :=
  if i.toNat ≤ 25 then 0x41#8 + i.zeroExtend 8
  else if i.toNat ≤ 51 then 0x61#8 + (i.zeroExtend 8 - 26#8)
  else if i.toNat ≤ 61 then 0x30#8 + (i.zeroExtend 8 - 52#8)
  else if i.toNat = 62 then 0x2B#8
  else 0x2F#8

/-- INV, the inverse ROM, by code range (20_memory.md R44). -/
def inv (c : Byte) : InvEntry :=
  if 0x41 ≤ c.toNat ∧ c.toNat ≤ 0x5A then .idx ((c - 0x41#8).truncate 6)
  else if 0x61 ≤ c.toNat ∧ c.toNat ≤ 0x7A then .idx ((c - 0x47#8).truncate 6)
  else if 0x30 ≤ c.toNat ∧ c.toNat ≤ 0x39 then .idx ((c + 0x04#8).truncate 6)
  else if c.toNat = 0x2B then .idx 62#6
  else if c.toNat = 0x2F then .idx 63#6
  else if c.toNat = 0x3D then .pad
  else .bad

/-- The index of an entry, zero where it has none; read only where the entry has one. -/
def InvEntry.index : InvEntry → Index
  | .idx i => i
  | .pad => 0#6
  | .bad => 0#6

end Sys2Proof.Machine
end

