-- ==== Sys2Proof/Machine/Operands.lean ====
section
/-! DEFINITION. How a group's bytes, slices and characters are packed and taken apart, most significant first
(20_memory.md R46, R47). -/

namespace Sys2Proof.Machine

/-- The 24-bit packer: missing bytes are zero, whatever the ignored bits hold (40_encoder.md R80). -/
def packBytes (n : Nat) (b0 b1 b2 : Byte) : Acc :=
  b0 ++ (if n ≥ 2 then b1 else 0x00#8) ++ (if n ≥ 3 then b2 else 0x00#8)

/-- Slice `sk = acc24[23-6k : 18-6k]`, k = 0, 1, 2, 3 (40_encoder.md R81). -/
def slice (acc : Acc) (k : Nat) : Index := acc.extractLsb' (18 - 6 * k) 6

/-- Byte k of the accumulator, `acc24[23-8k : 16-8k]`, k = 0, 1, 2 (41_decoder.md R107). -/
def accByte (acc : Acc) (k : Nat) : Byte := acc.extractLsb' (16 - 8 * k) 8

/-- Four slices back to an accumulator, `v0` in [23:18] (41_decoder.md R107). -/
def packSlices (v0 v1 v2 v3 : Index) : Acc := v0 ++ v1 ++ v2 ++ v3

end Sys2Proof.Machine
end

