-- ==== Sys2Proof/Machine/Flags.lean ====
section
/-! DEFINITION. The flag-like fields of a response word: err, cause, count, and its data (10_state.md R24,
30_encoding.md R66). -/

namespace Sys2Proof.Machine

/-- The cause of a response (60_exceptions.md R151). -/
inductive Cause where
  /-- Success. -/
  | none
  /-- The group has fewer than 4 characters. -/
  | len
  /-- Illegal padding. -/
  | pad
  /-- A non-padding character outside the alphabet. -/
  | char
  /-- A reserved command word. -/
  | cmd
deriving DecidableEq, Repr

/-- The code of a cause in `rsp[38:36]` (60_exceptions.md R151). -/
def Cause.code : Cause → BitVec 3
  | .none => 0#3
  | .len => 1#3
  | .pad => 2#3
  | .char => 3#3
  | .cmd => 4#3

/-- A response word from its fields; [35:34] is 00 (30_encoding.md R66). -/
def responseWord (err : BitVec 1) (cause : BitVec 3) (count : BitVec 2) (dout : BitVec 32) : Word :=
  err ++ cause ++ 0#2 ++ count ++ dout

/-- `err = rsp[39]`. -/
def rspErr (r : Word) : Bool := r.getLsbD 39

/-- `cause = rsp[38:36]`. -/
def rspCause (r : Word) : BitVec 3 := r.extractLsb' 36 3

/-- `rsp[35:34]`. -/
def rspZero (r : Word) : BitVec 2 := r.extractLsb' 34 2

/-- `count = rsp[33:32]`. -/
def rspCount (r : Word) : BitVec 2 := r.extractLsb' 32 2

/-- Lane k of `dout`, most significant first: `rsp[31-8k : 24-8k]` (20_memory.md R47). -/
def rspLane (r : Word) (k : Nat) : Byte := r.extractLsb' (24 - 8 * k) 8

/-- The success response. -/
def successWord (count : BitVec 2) (dout : BitVec 32) : Word := responseWord 0#1 Cause.none.code count dout

/-- `fail(cause)`: the failure response, with `count = 0` and `dout = 0` (41_decoder.md R109, 60_exceptions.md R152). -/
def failWord (c : Cause) : Word := responseWord 1#1 c.code 0#2 0#32

end Sys2Proof.Machine
end

