-- ==== Sys2Proof/Config.lean ====
section
/-! DEFINITION. What an implementation fixes and the values the spec leaves open. None of the constants has a body, so
no proof can see its value. -/

namespace Sys2Proof.Config

/-- How far the queue depth lies above its least legal value 1 (00_scope.md R8; log 5). -/
opaque queueSlack : Nat

/-- QDEPTH: any natural number at least 1 (00_scope.md R8, 10_state.md R27). -/
def qdepth : Nat := queueSlack + 1

/-- The level of `rsp_data` in a cycle in which `rsp_valid` is 0: any value (10_state.md R28, U1; log 3). The argument
counts the values drawn so far. -/
opaque idleRspData : Nat → Word

/-- The level of `cmd_ready` in a cycle in which `rst` is 1: unspecified (10_state.md R31, U2; log 3). -/
opaque cmdReadyInReset : Nat → Bool

end Sys2Proof.Config
end

