-- ==== Sys2Proof/Machine/State.lean ====
section
/-! DEFINITION. The state of the block and of the host's side of its ports, as plain data, and its value after reset
(10_state.md). -/

namespace Sys2Proof.Machine

/-- Why a step stops with a fault. No constructor: an error is a value in a response, and the block has no trap
(60_exceptions.md R152, R154, R155), so nothing raises a fault. -/
inductive Fault where
deriving DecidableEq, Repr

/-- Why an instruction has no meaning in the model. -/
inductive Refusal where
  /-- Raised by an arm of `exec` for a command that has no meaning yet. Safe: the model stops. No arm raises it now. -/
  | notModelled (mnemonic : String)
deriving DecidableEq, Repr

/-- What each agent does in one clock cycle (log 1). The first three are the host's, the last two are the block's
timing, which the spec leaves open (00_scope.md R8, 70_reset_and_hazards.md R172, R177). -/
structure Move where
  /-- The host drives `rst` to this level. -/
  rst : Bool
  /-- The host starts to offer its next command, if it offers none already. -/
  offer : Bool
  /-- The host drives `rsp_ready` to this level. -/
  take : Bool
  /-- The block is willing to accept a command, if `Q` has room. -/
  ready : Bool
  /-- The latency of the head of `Q` is over: the block offers its response. -/
  answer : Bool
deriving DecidableEq, Repr

/-- The move in which every agent acts as soon as it may and there is no reset. -/
def Move.eager : Move := ⟨false, true, true, true, true⟩

/-- What the host does in every cycle after the listed moves, for ever (log 1). A host that never takes a response again
(70_reset_and_hazards.md R175), one that never offers again and one that keeps `rst` at 1 are habits. -/
structure Habit where
  /-- The level of `rst`. -/
  rst : Bool
  /-- Whether it offers its next command when it offers none already. -/
  offer : Bool
  /-- The level of `rsp_ready`. -/
  take : Bool
deriving DecidableEq, Repr

/-- The habit of a host that offers and takes as soon as it may. -/
def Habit.eager : Habit := ⟨false, true, true⟩

/-- A cycle after the listed moves: the host's habit, and a block that acts as soon as it may, which is the fairness
10_state.md R30 asks of it. -/
def Habit.move (h : Habit) : Move := ⟨h.rst, h.offer, h.take, true, true⟩

/-- A transaction of 10_state.md R29, as the host sees it. -/
inductive Event where
  /-- `Accept(c)`. -/
  | accept (c : Word)
  /-- `Respond`, in which the host receives `r`. -/
  | respond (r : Word)
  /-- `Reset`. -/
  | reset
deriving DecidableEq, Repr

/-- The ports of 10_state.md R26 under their names, the queue `Q` of R27, and the host's side. The clock is the step
itself. The ROMs are constants (20_memory.md R53). -/
structure State where
  /-- `rst`, input. -/
  rst : Bool
  /-- `cmd_valid`, input. Between two steps it is 1 when the host holds an offer that has not transferred. -/
  cmdValid : Bool
  /-- `cmd_data`, input. Its level while `cmd_valid` is 0 is open; here it keeps its last value (log 14). -/
  cmdData : Word
  /-- `cmd_ready`, output. -/
  cmdReady : Bool
  /-- `rsp_valid`, output. Between two steps it is 1 when the block holds a response that has not transferred. -/
  rspValid : Bool
  /-- `rsp_data`, output. -/
  rspData : Word
  /-- `rsp_ready`, input. -/
  rspReady : Bool
  /-- `Q`: the command words accepted and not yet answered, oldest first. -/
  q : List Word
  /-- The command words the host has still to offer, oldest first (log 2). -/
  program : List Word
  /-- The moves of the coming cycles (log 1). -/
  moves : List Move
  /-- What the host does after the last of them (log 1). -/
  habit : Habit
  /-- The transactions so far, oldest first. -/
  trace : List Event
  /-- How many free values have been drawn (log 3). -/
  draws : Nat
deriving DecidableEq, Repr

/-- The state right after reset (10_state.md R31). `Q = []` and `rsp_valid = 0` are the spec's; `rsp_data` and
`cmd_ready` are unspecified there and free here (log 3); the host's side is log 4. -/
def State.reset : State where
  rst := false
  cmdValid := false
  cmdData := 0#40
  cmdReady := Config.cmdReadyInReset 0
  rspValid := false
  rspData := Config.idleRspData 0
  rspReady := false
  q := []
  program := []
  moves := []
  habit := Habit.eager
  trace := []
  draws := 1

end Sys2Proof.Machine
end

