-- ==== Sys2Proof/Machine/Ops.lean ====
section
/-! DEFINITION. The operations on the ports and the queue: what the host and the block drive in a cycle, and what
transfers at the rising edge that ends it (10_state.md R26 to R31, 70_reset_and_hazards.md). An error takes no
exception here: it is a response (60_exceptions.md R152, R154). -/

namespace Sys2Proof.Machine

/-- The block offers a response word (10_state.md R26). -/
def State.offerResponse (s : State) (r : Word) : State := { s with rspValid := true, rspData := r }

/-- `rsp_valid` is 0 and `rsp_data` is any value (10_state.md R28, U1). -/
def State.idleResponse (s : State) : State :=
  { s with rspValid := false, rspData := Config.idleRspData s.draws, draws := s.draws + 1 }

/-- The move of this cycle: the head of `moves`, and the host's habit when there is none (log 1). -/
def State.nextMove (s : State) : Move :=
  match s.moves with
  | [] => s.habit.move
  | m :: _ => m

/-- The host offers its next command. A pending offer is held unchanged until it transfers (10_state.md R26; log 12).
While there is no offer `cmd_data` keeps its last value (the model's choice, log 14). -/
def State.hostOffer (m : Move) (s : State) : State :=
  if s.cmdValid || !m.offer then s
  else
    match s.program with
    | [] => s
    | c :: cs => { s with cmdValid := true, cmdData := c, program := cs }

/-- The host sets its levels for the cycle. -/
def State.hostDrive (m : Move) (s : State) : State :=
  { s.hostOffer m with rst := m.rst, rspReady := m.take, moves := s.moves.tail }

/-- The level of `cmd_ready`: unspecified in reset (10_state.md R31), else willing and with room in `Q` (R29;
log 7). -/
def State.readyLevel (m : Move) (s : State) : Bool :=
  if s.rst then Config.cmdReadyInReset s.draws else m.ready && decide (s.q.length < Config.qdepth)

/-- The block sets `cmd_ready`, holds an offered response, and offers none in reset (10_state.md R26, R31; log 8). -/
def State.blockDrive (m : Move) (s : State) : State :=
  let t := { s with cmdReady := s.readyLevel m }
  if s.rspValid && !s.rst then t else t.idleResponse

/-- All levels of the cycle but a new response. -/
def State.drive (m : Move) (s : State) : State := (s.hostDrive m).blockDrive m

/-- The response transfer at the edge, `Respond` of 10_state.md R29. -/
def State.deliver (s : State) : State :=
  if s.rspValid && s.rspReady then
    { s.idleResponse with q := s.q.tail, trace := s.trace ++ [Event.respond s.rspData] }
  else s

/-- The command transfer at the edge, `Accept` of 10_state.md R29. The word stays on `cmd_data`, where nothing reads it
until the next offer (the model's choice, log 14). -/
def State.accept (s : State) : State :=
  if s.cmdValid && s.cmdReady then
    { s with q := s.q ++ [s.cmdData], cmdValid := false, trace := s.trace ++ [Event.accept s.cmdData] }
  else s

/-- A rising edge with `rst = 1` (70_reset_and_hazards.md R170). -/
def State.resetEdge (s : State) : State :=
  { s.idleResponse with q := [], trace := s.trace ++ [Event.reset] }

/-- The rising edge: reset, or the transfers, the response before the command (log 6). -/
def State.edge (s : State) : State := if s.rst then s.resetEdge else s.deliver.accept

/-- The command word the block works on: the head of `Q`. -/
def State.fetch (s : State) : Option Word := s.q.head?

/-- The block answers a reserved word: cause CMD, no other effect (30_encoding.md R68). -/
def answerReserved (s : State) : Host.Outcome State Fault Refusal := .next (s.offerResponse (failWord .cmd))

end Sys2Proof.Machine
end

