-- ==== Sys2Proof/Machine/Decoder.lean ====
section
/-! DEFINITION. base64_decoder: the character LUT, the padding validator, the bit unpacker, the responses, and the
meanings of DEC and DECL (41_decoder.md). `text` holds the `m` characters supplied. -/

namespace Sys2Proof.Machine

/-- Character `ck`. A lane past `m` reads 0x00; nothing looks at it, since such a group is a length error
(41_decoder.md R101). -/
def lane (text : List Byte) (k : Nat) : Byte := text.getD k 0x00#8

/-- `padk = (ck = '=')` (41_decoder.md R100). -/
def padFlag (text : List Byte) (k : Nat) : Bool := lane text k == padChar

/-- `vk`, the index of character k (41_decoder.md R100). -/
def laneIndex (text : List Byte) (k : Nat) : Index := (inv (lane text k)).index

/-- `E_LEN` (41_decoder.md R101). -/
def eLen (text : List Byte) : Bool := text.length != 4

/-- The padding count of the three legal patterns, `none` for every other pattern (41_decoder.md R102). -/
def padCount (text : List Byte) : Option Nat :=
  match padFlag text 0, padFlag text 1, padFlag text 2, padFlag text 3 with
  | false, false, false, false => some 0
  | false, false, false, true => some 1
  | false, false, true, true => some 2
  | _, _, _, _ => none

/-- `E_PADPOS` (41_decoder.md R103). -/
def ePadPos (final : Bool) (text : List Byte) : Bool :=
  match padCount text with
  | none => true
  | some p => decide (p > 0) && !final

/-- `E_CHAR` (41_decoder.md R104). -/
def eChar (text : List Byte) : Bool :=
  match padCount text with
  | none => false
  | some p => (List.range (4 - p)).any (fun k => inv (lane text k) == .bad)

/-- `E_PADBITS` (41_decoder.md R105). -/
def ePadBits (text : List Byte) : Bool :=
  match padCount text with
  | none => false
  | some p =>
    !eChar text &&
      (p == 1 && (laneIndex text 2).extractLsb' 0 2 != 0#2 || p == 2 && (laneIndex text 1).extractLsb' 0 4 != 0#4)

/-- The one cause reported, by the priority of 41_decoder.md R106. -/
def decoderCause (final : Bool) (text : List Byte) : Cause :=
  if eLen text then .len
  else if ePadPos final text then .pad
  else if eChar text then .char
  else if ePadBits text then .pad
  else .none

/-- The accumulator of a valid group with padding count p (41_decoder.md R107). -/
def unpackAcc (p : Nat) (text : List Byte) : Acc :=
  packSlices (laneIndex text 0) (laneIndex text 1) (if p < 2 then laneIndex text 2 else 0#6)
    (if p < 1 then laneIndex text 3 else 0#6)

/-- The success response of a valid group with padding count p (41_decoder.md R107, R108). -/
def decoderSuccess (p : Nat) (text : List Byte) : Word :=
  successWord (BitVec.ofNat 2 (3 - p))
    (0x00#8 ++ accByte (unpackAcc p text) 0 ++ accByte (unpackAcc p text) 1 ++ accByte (unpackAcc p text) 2)

/-- The response of a decoder command (41_decoder.md R106 to R109). `padCount` is `some` whenever the cause is NONE. -/
def decoderResponse (final : Bool) (text : List Byte) : Word :=
  match decoderCause final text with
  | .none => decoderSuccess ((padCount text).getD 0) text
  | c => failWord c

/-- DEC (41_decoder.md R110): `L = 0`. -/
def execDec (text : List Byte) (s : State) : Host.Outcome State Fault Refusal :=
  .next (s.offerResponse (decoderResponse false text))

/-- DECL (41_decoder.md R111): `L = 1`. -/
def execDecl (text : List Byte) (s : State) : Host.Outcome State Fault Refusal :=
  .next (s.offerResponse (decoderResponse true text))

end Sys2Proof.Machine
end

