-- ==== Sys2Proof/Machine/Encoder.lean ====
section
/-! DEFINITION. base64_encoder: the LUT, the padding inserter, the response, and the meanings of ENC1, ENC2 and ENC3
(40_encoder.md). -/

namespace Sys2Proof.Machine

/-- Output character k of a group of n bytes: a symbol for k ≤ n, else `=` (40_encoder.md R82, R83). -/
def encoderChar (n : Nat) (acc : Acc) (k : Nat) : Byte := if k ≤ n then fwd (slice acc k) else padChar

/-- The four output characters, `c0` in the most significant lane. -/
def encoderChars (n : Nat) (acc : Acc) : BitVec 32 :=
  encoderChar n acc 0 ++ encoderChar n acc 1 ++ encoderChar n acc 2 ++ encoderChar n acc 3

/-- The response of an encoder command (40_encoder.md R84). -/
def encoderResponse (n : Nat) (b0 b1 b2 : Byte) : Word :=
  successWord (BitVec.ofNat 2 n) (encoderChars n (packBytes n b0 b1 b2))

/-- ENC1 (40_encoder.md R87). -/
def execEnc1 (b0 : Byte) (s : State) : Host.Outcome State Fault Refusal :=
  .next (s.offerResponse (encoderResponse 1 b0 0x00#8 0x00#8))

/-- ENC2 (40_encoder.md R86). -/
def execEnc2 (b0 b1 : Byte) (s : State) : Host.Outcome State Fault Refusal :=
  .next (s.offerResponse (encoderResponse 2 b0 b1 0x00#8))

/-- ENC3 (40_encoder.md R85). -/
def execEnc3 (b0 b1 b2 : Byte) (s : State) : Host.Outcome State Fault Refusal :=
  .next (s.offerResponse (encoderResponse 3 b0 b1 b2))

end Sys2Proof.Machine
end

