-- ==== Sys2Proof/Machine/Dispatch.lean ====
section
/-! DEFINITION. One arm for each command. -/

namespace Sys2Proof.Machine

/-- What a command does: it answers on the response port and changes nothing else (20_memory.md R50). -/
def exec (i : Instr) (s : State) : Host.Outcome State Fault Refusal :=
  match i with
  | .enc1 b0 => Sys2Proof.Machine.execEnc1 b0 s
  | .enc2 b0 b1 => Sys2Proof.Machine.execEnc2 b0 b1 s
  | .enc3 b0 b1 b2 => Sys2Proof.Machine.execEnc3 b0 b1 b2 s
  | .dec text => Sys2Proof.Machine.execDec text s
  | .decl text => Sys2Proof.Machine.execDecl text s

end Sys2Proof.Machine
end

