-- ==== Sys2Proof/Machine/Answer.lean ====
section
/-! DEFINITION. How the block answers the head of its queue in a cycle (10_state.md R26, R29). -/

namespace Sys2Proof.Machine

/-- The block processes one command word. -/
def runCommand (w : Word) (s : State) : Host.Outcome State Fault Refusal :=
  match decode w with
  | .ok i => exec i s
  | .error _ => answerReserved s

/-- The block offers a response when it is not in reset, holds no response, `Q` has a head, and that command's latency
is over (`go`). -/
def answer (go : Bool) (s : State) : Host.Outcome State Fault Refusal :=
  if s.rst || s.rspValid || !go then .next s
  else
    match s.fetch with
    | none => .next s
    | some w => runCommand w s

/-- The edge that ends the cycle, where the cycle did not stop. -/
def finishCycle : Host.Outcome State Fault Refusal → Host.Outcome State Fault Refusal
  | .next t => .next t.edge
  | .fault r => .fault r
  | .refused r => .refused r

end Sys2Proof.Machine
end

