-- ==== Sys2Proof/Machine/Step.lean ====
section
/-! DEFINITION. One clock cycle (10_state.md R26): the agents set their levels, the block answers, and the rising edge
transfers. -/

namespace Sys2Proof.Machine

/-- One cycle of `clk`. -/
def step (s : State) : Host.Outcome State Fault Refusal :=
  finishCycle (answer s.nextMove.answer (s.drive s.nextMove))

/-- `s` with the command word of an opcode-table row as the head of `Q`, accepted and due in the very next cycle
(log 2): no response is held, and that cycle is eager. -/
def State.withFetchWord (s : State) (nbits w : Nat) : State :=
  { s with rspValid := false, q := tableWord nbits w :: s.q.tail, moves := Move.eager :: s.moves.tail }

end Sys2Proof.Machine
end

