-- ==== Sys2Proof/Machine/Respond.lean ====
section
/-! DEFINITION. The response of a command word as a function of the word alone (10_state.md R25, 30_encoding.md R67). -/

namespace Sys2Proof.Machine

/-- The response a command gets. -/
def instrResponse : Instr → Word
  | .enc1 b0 => encoderResponse 1 b0 0x00#8 0x00#8
  | .enc2 b0 b1 => encoderResponse 2 b0 b1 0x00#8
  | .enc3 b0 b1 b2 => encoderResponse 3 b0 b1 b2
  | .dec text => decoderResponse false text
  | .decl text => decoderResponse true text

/-- `respond(cmd)` (30_encoding.md R67, R68). -/
def respond (w : Word) : Word :=
  match decode w with
  | .ok i => instrResponse i
  | .error _ => failWord .cmd

end Sys2Proof.Machine
end

