-- ==== Sys2Proof/Machine/Stream.lean ====
section
/-! DEFINITION. The whole-sequence pseudo-instructions ENCODE and DECODE, which the host runs: expansion into commands
and combination of the responses (42_stream.md). -/

namespace Sys2Proof.Machine

/-- The commands of `ENCODE d` (42_stream.md R131, R132). -/
def encodeExpand : List Byte → List Instr
  | b0 :: b1 :: b2 :: rest => .enc3 b0 b1 b2 :: encodeExpand rest
  | [b0, b1] => [.enc2 b0 b1]
  | [b0] => [.enc1 b0]
  | [] => []

/-- The four characters of an encoder response (42_stream.md R133). -/
def groupChars (r : Word) : List Byte := [rspLane r 0, rspLane r 1, rspLane r 2, rspLane r 3]

/-- The text the host makes of the responses (42_stream.md R133). -/
def encodeCombine (rs : List Word) : List Byte := rs.flatMap groupChars

/-- The response words of commands, in order. -/
def responsesTo (is : List Instr) : List Word := is.map (fun i => respond (encode i))

/-- `ENCODE d` (42_stream.md R133). -/
def encodeBytes (d : List Byte) : List Byte := encodeCombine (responsesTo (encodeExpand d))

/-- The commands of `DECODE t` (42_stream.md R134, R135): DEC while characters follow the group, DECL for the last. -/
def decodeExpand : List Byte → List Instr
  | [] => []
  | c0 :: c1 :: c2 :: c3 :: c4 :: rest => .dec [c0, c1, c2, c3] :: decodeExpand (c4 :: rest)
  | [c0, c1, c2, c3] => [.decl [c0, c1, c2, c3]]
  | [c0, c1, c2] => [.decl [c0, c1, c2]]
  | [c0, c1] => [.decl [c0, c1]]
  | [c0] => [.decl [c0]]

/-- `bytes(r)`: the first `count` bytes of a decoder response (42_stream.md R136). -/
def groupBytes (r : Word) : List Byte := [rspLane r 1, rspLane r 2, rspLane r 3].take (rspCount r).toNat

/-- The cause code of a failed text of length `len` (42_stream.md R137). -/
def wholeCause (len : Nat) (rs : List Word) : BitVec 3 :=
  if len % 4 ≠ 0 then Cause.len.code
  else
    match rs.find? rspErr with
    | some r => rspCause r
    | none => Cause.none.code

/-- What the host makes of the responses to a text of length `len`: all of the bytes, or a `MalformedInputError` with
its cause code and no bytes (42_stream.md R136). -/
def decodeCombine (len : Nat) (rs : List Word) : Except (BitVec 3) (List Byte) :=
  if len = 0 then .ok []
  else if rs.any rspErr then .error (wholeCause len rs)
  else .ok (rs.flatMap groupBytes)

/-- `DECODE t` (42_stream.md R136). -/
def decodeText (t : List Byte) : Except (BitVec 3) (List Byte) :=
  decodeCombine t.length (responsesTo (decodeExpand t))

/-- The code the host sends for a character: its 8-bit code, or 0x00, which INV maps to BAD, where it has none
(42_stream.md R135; log 10). -/
def charCode (c : Char) : Byte := if c.toNat < 256 then BitVec.ofNat 8 c.toNat else 0x00#8

/-- `DECODE` of a text of characters (42_stream.md R135). -/
def decodeChars (t : List Char) : Except (BitVec 3) (List Byte) := decodeText (t.map charCode)

end Sys2Proof.Machine
end

