-- ==== Sys2Proof/Machine/Assembler.lean ====
section
/-! DEFINITION. The assembler's source lines and the disassembler (30_encoding.md R70 to R72). Every parser takes the
characters that are left and answers what it read and what is left, or `none` where the line has no such part. Details the
spec leaves open are log 9 and log 10. -/

namespace Sys2Proof.Machine

/-! ### Reading -/

/-- The value of a hex digit, in either letter case. -/
def hexValue (c : Char) : Option (BitVec 4) :=
  if '0' ≤ c ∧ c ≤ '9' then some (BitVec.ofNat 4 (c.toNat - 0x30))
  else if 'A' ≤ c ∧ c ≤ 'F' then some (BitVec.ofNat 4 (c.toNat - 0x37))
  else if 'a' ≤ c ∧ c ≤ 'f' then some (BitVec.ofNat 4 (c.toNat - 0x57))
  else none

/-- Two hex digits. -/
def hexByte (h l : Char) : Option Byte :=
  match hexValue h, hexValue l with
  | some x, some y => some (x ++ y)
  | _, _ => none

/-- Leading spaces and tabs away. -/
def skipBlanks : List Char → List Char
  | ' ' :: cs => skipBlanks cs
  | '\t' :: cs => skipBlanks cs
  | cs => cs

/-- Nothing but blanks and a comment is left. -/
def atLineEnd (cs : List Char) : Bool :=
  match skipBlanks cs with
  | [] => true
  | c :: _ => c == ';'

/-- A byte operand: `0xHH`, or `'c'` for an ASCII character. -/
def readByte (cs : List Char) : Option (Byte × List Char) :=
  match skipBlanks cs with
  | '0' :: 'x' :: h :: l :: rest =>
    match hexByte h l with
    | some b => some (b, rest)
    | none => none
  | '\'' :: c :: '\'' :: rest => if c.toNat < 128 then some (charCode c, rest) else none
  | _ => none

/-- A comma. -/
def readComma (cs : List Char) : Option (List Char) :=
  match skipBlanks cs with
  | ',' :: rest => some rest
  | _ => none

/-- What follows a byte in a list: a comma and a byte, as often as they stand there; `fuel` bounds their number. -/
def readMoreBytes : Nat → List Char → Option (List Byte × List Char)
  | 0, cs => some ([], cs)
  | fuel + 1, cs =>
    match readComma cs with
    | none => some ([], cs)
    | some cs1 =>
      match readByte cs1 with
      | none => none
      | some (b, cs2) =>
        match readMoreBytes fuel cs2 with
        | none => none
        | some (bs, cs3) => some (b :: bs, cs3)

/-- A list of byte operands separated by commas, empty where the line ends (the model's choice, log 9). -/
def readBytes (cs : List Char) : Option (List Byte × List Char) :=
  if atLineEnd cs then some ([], cs)
  else
    match readByte cs with
    | none => none
    | some (b, cs1) =>
      match readMoreBytes cs1.length cs1 with
      | none => none
      | some (bs, cs2) => some (b :: bs, cs2)

/-- The rest of a text operand after its first double quote, with the escapes of 30_encoding.md R70. -/
def readTextRest : List Char → Option (List Byte × List Char)
  | [] => none
  | '"' :: rest => some ([], rest)
  | '\\' :: 'n' :: rest => (readTextRest rest).map (fun p => (0x0A#8 :: p.1, p.2))
  | '\\' :: 't' :: rest => (readTextRest rest).map (fun p => (0x09#8 :: p.1, p.2))
  | '\\' :: 'x' :: h :: l :: rest =>
    match hexByte h l with
    | none => none
    | some b => (readTextRest rest).map (fun p => (b :: p.1, p.2))
  | c :: rest => if c = '\\' then none else (readTextRest rest).map (fun p => (charCode c :: p.1, p.2))

/-- A text operand: a double-quoted string. -/
def readText (cs : List Char) : Option (List Byte × List Char) :=
  match skipBlanks cs with
  | '"' :: rest => readTextRest rest
  | _ => none

/-- The operand of ENCODE as a string: the bytes of its characters, which are ASCII or escapes (the model's choice,
log 9). -/
def readQuotedBytes (cs : List Char) : Option (List Byte × List Char) :=
  match readText cs with
  | none => none
  | some (d, rest) =>
    if (cs.take (cs.length - rest.length)).all (fun c => decide (c.toNat < 128)) then some (d, rest) else none

/-- A closing bracket. -/
def readBracketEnd (cs : List Char) : Option (List Char) :=
  match skipBlanks cs with
  | ']' :: rest => some rest
  | _ => none

/-- The operand of ENCODE after an opening bracket: a byte list, which may be empty, and the closing bracket. -/
def readBracketed (cs : List Char) : Option (List Byte × List Char) :=
  match readBracketEnd cs with
  | some rest => some ([], rest)
  | none =>
    match readBytes cs with
    | none => none
    | some (d, cs1) => (readBracketEnd cs1).map (fun rest => (d, rest))

/-- The operand of ENCODE. 30_encoding.md R72 says only "byte list"; 95_test_vectors.md writes it as a string and in
brackets. That a line may have it in either form, or as a bare list, is the model's choice (log 9). -/
def readSequence (cs : List Char) : Option (List Byte × List Char) :=
  match skipBlanks cs with
  | '"' :: rest => readQuotedBytes ('"' :: rest)
  | '[' :: rest => readBracketed rest
  | _ => readBytes cs

/-- The ten hex digits of a `.cmd` word, as its value. -/
def readHexDigits : Nat → Nat → List Char → Option (Nat × List Char)
  | 0, acc, cs => some (acc, cs)
  | _ + 1, _, [] => none
  | n + 1, acc, c :: cs =>
    match hexValue c with
    | none => none
    | some d => readHexDigits n (acc * 16 + d.toNat) cs

/-- The operand of `.cmd`: `0x` and ten hex digits. -/
def readWord (cs : List Char) : Option (Word × List Char) :=
  match skipBlanks cs with
  | '0' :: 'x' :: rest => (readHexDigits 10 0 rest).map (fun p => (BitVec.ofNat 40 p.1, p.2))
  | _ => none

/-- The commands of a line, if nothing is left of it but blanks and a comment. -/
def closeLine (words : List Word) (rest : List Char) : Option (List Word) :=
  if atLineEnd rest then some words else none

/-- A decoder command line: 1 to 4 characters. -/
def assembleText (mk : List Byte → Instr) (cs : List Char) : Option (List Word) :=
  match readText cs with
  | none => none
  | some (text, rest) => if (mk text).wellFormed then closeLine [encode (mk text)] rest else none

/-- An encoder command line: as many bytes as the command has. -/
def assembleBytes (n : Nat) (cs : List Char) : Option (List Word) :=
  match readBytes cs with
  | none => none
  | some (bytes, rest) =>
    if bytes.length = n then closeLine ((encodeExpand bytes).map encode) rest else none

/-- The first word of a line, up to a blank or a comment, and the rest. -/
def readMnemonic : List Char → List Char × List Char
  | [] => ([], [])
  | c :: cs =>
    if c = ' ' ∨ c = '\t' ∨ c = ';' then ([], c :: cs)
    else (c :: (readMnemonic cs).1, (readMnemonic cs).2)

/-- A line whose first word is `mn` and whose rest is `cs`. -/
def assembleOperands (mn cs : List Char) : Option (List Word) :=
  if mn = ['E', 'N', 'C', '1'] then assembleBytes 1 cs
  else if mn = ['E', 'N', 'C', '2'] then assembleBytes 2 cs
  else if mn = ['E', 'N', 'C', '3'] then assembleBytes 3 cs
  else if mn = ['D', 'E', 'C'] then assembleText Instr.dec cs
  else if mn = ['D', 'E', 'C', 'L'] then assembleText Instr.decl cs
  else if mn = ['.', 'c', 'm', 'd'] then
    match readWord cs with
    | none => none
    | some (w, rest) => closeLine [w] rest
  else if mn = ['E', 'N', 'C', 'O', 'D', 'E'] then
    match readSequence cs with
    | none => none
    | some (d, rest) => closeLine ((encodeExpand d).map encode) rest
  else if mn = ['D', 'E', 'C', 'O', 'D', 'E'] then
    match readText cs with
    | none => none
    | some (t, rest) => closeLine ((decodeExpand t).map encode) rest
  else none

/-- The command words of one source line; none for a blank line or a comment (30_encoding.md R70, R72). -/
def assembleLine (line : List Char) : Option (List Word) :=
  if atLineEnd line then some []
  else assembleOperands (readMnemonic (skipBlanks line)).1 (readMnemonic (skipBlanks line)).2

/-- The command words of a program, one line after the other. -/
def assemble : List (List Char) → Option (List Word)
  | [] => some []
  | l :: ls =>
    match assembleLine l, assemble ls with
    | some ws, some rest => some (ws ++ rest)
    | _, _ => none

/-! ### Printing -/

/-- A hex digit, upper case. -/
def hexDigit (v : BitVec 4) : Char :=
  if v.toNat < 10 then Char.ofNat (0x30 + v.toNat) else Char.ofNat (0x37 + v.toNat)

/-- Two hex digits. -/
def hexPair (b : Byte) : List Char := [hexDigit (b.extractLsb' 4 4), hexDigit (b.extractLsb' 0 4)]

/-- A byte operand. -/
def printByte (b : Byte) : List Char := '0' :: 'x' :: hexPair b

/-- One character of a text operand. -/
def printChar (c : Byte) : List Char :=
  if c = 0x0A#8 then ['\\', 'n']
  else if c = 0x09#8 then ['\\', 't']
  else if 0x20 ≤ c.toNat ∧ c.toNat ≤ 0x7E ∧ c ≠ 0x22#8 ∧ c ≠ 0x5C#8 then [Char.ofNat c.toNat]
  else '\\' :: 'x' :: hexPair c

/-- A text operand. -/
def printText (text : List Byte) : List Char := '"' :: text.flatMap printChar ++ ['"']

/-- The ten hex digits of a word. -/
def printWord (w : Word) : List Char :=
  '0' :: 'x' :: hexPair (w.extractLsb' 32 8) ++ hexPair (w.extractLsb' 24 8) ++ hexPair (w.extractLsb' 16 8) ++
    hexPair (w.extractLsb' 8 8) ++ hexPair (w.extractLsb' 0 8)

/-- A command in the form of 30_encoding.md R70. -/
def printInstr : Instr → List Char
  | .enc1 b0 => ['E', 'N', 'C', '1', ' '] ++ printByte b0
  | .enc2 b0 b1 => ['E', 'N', 'C', '2', ' '] ++ printByte b0 ++ [',', ' '] ++ printByte b1
  | .enc3 b0 b1 b2 =>
    ['E', 'N', 'C', '3', ' '] ++ printByte b0 ++ [',', ' '] ++ printByte b1 ++ [',', ' '] ++ printByte b2
  | .dec text => ['D', 'E', 'C', ' '] ++ printText text
  | .decl text => ['D', 'E', 'C', 'L', ' '] ++ printText text

/-- The source line of a word (30_encoding.md R71). -/
def disassemble (w : Word) : List Char :=
  match decode w with
  | .ok i => printInstr i
  | .error _ => ['.', 'c', 'm', 'd', ' '] ++ printWord w

end Sys2Proof.Machine
end

