-- ==== Sys2Proof/Machine/Transaction.lean ====
section
/-! DEFINITION. The transaction-level model of 10_state.md R29 over `Q`, apart from the ports. -/

namespace Sys2Proof.Machine

/-- One transaction on `Q`; `none` where it is not enabled. `Respond` delivers `respond(h)` for the head h. -/
def Event.apply (depth : Nat) (q : List Word) : Event → Option (List Word)
  | .accept c => if q.length < depth then some (q ++ [c]) else none
  | .respond r =>
    match q with
    | [] => none
    | h :: t => if r = Sys2Proof.Machine.respond h then some t else none
  | .reset => some []

/-- Transactions in order. -/
def replay (depth : Nat) (q : List Word) : List Event → Option (List Word)
  | [] => some q
  | e :: es =>
    match e.apply depth q with
    | none => none
    | some q' => replay depth q' es

/-- The responses the host received, oldest first. -/
def responsesOf : List Event → List Word
  | [] => []
  | .respond r :: es => r :: responsesOf es
  | .accept _ :: es => responsesOf es
  | .reset :: es => responsesOf es

/-- The commands accepted, oldest first. -/
def acceptedOf : List Event → List Word
  | [] => []
  | .accept c :: es => c :: acceptedOf es
  | .respond _ :: es => acceptedOf es
  | .reset :: es => acceptedOf es

/-- The transactions since the last reset. -/
def sinceReset : List Event → List Event
  | [] => []
  | e :: es => if Event.reset ∈ es then sinceReset es else if e = .reset then es else e :: es

end Sys2Proof.Machine
end

