-- ==== Sys2Proof/Safety.lean ====
section
/-! DEFINITION. What a sound state of the block is, and the words statements about runs are made of. -/

namespace Sys2Proof.Machine

/-- What holds between any two cycles: `Q` is within its depth (10_state.md R27), an offered response is that of the
head of `Q` (R26, R29), no response is offered in reset (R31), and the transactions so far are a run of R29 from the
empty queue that ends in `Q`. -/
structure State.Inv (s : State) : Prop where
  depth : s.q.length ≤ Config.qdepth
  held : s.rspValid = true → s.q.head?.map respond = some s.rspData
  quiet : s.rst = true → s.rspValid = false
  behaviour : replay Config.qdepth [] s.trace = some s.q

/-- No coming cycle is a reset. -/
def State.noReset (s : State) : Prop := (∀ m ∈ s.moves, m.rst = false) ∧ s.habit.rst = false

/-- No coming cycle is a reset and the host keeps `rsp_ready = 1` (the premise of 10_state.md R30). -/
def State.hostTakes (s : State) : Prop := s.noReset ∧ (∀ m ∈ s.moves, m.take = true) ∧ s.habit.take = true

/-- The host never takes a response again (70_reset_and_hazards.md R175). -/
def State.hostNeverTakes (s : State) : Prop := (∀ m ∈ s.moves, m.take = false) ∧ s.habit.take = false

/-- After the listed moves the host goes on to offer its commands and to take the responses. -/
def State.hostGoesOn (s : State) : Prop := s.habit.offer = true ∧ s.habit.take = true

/-- The command the host offers and that has not transferred. -/
def State.pending (s : State) : List Word := if s.cmdValid then [s.cmdData] else []

/-- The commands still to be answered: accepted, offered, and to be offered, oldest first. -/
def State.outstanding (s : State) : List Word := s.q ++ s.pending ++ s.program

/-- The responses the host has received, oldest first. -/
def State.received (s : State) : List Word := responsesOf s.trace

/-- `n` cycles take `s` to `t`, none of them stopping. -/
def State.Reaches (n : Nat) (s t : State) : Prop := Host.Core.run Sys2Proof.core n s = .next t

end Sys2Proof.Machine
end

