-- ==== Sys2Proof/Certificates/Slice0/Obligations.lean ====
section
/-! DEFINITION. The statements about the model, for the provers. Each docstring names the rules of spec/ it formalises. -/

open Sys2Proof Sys2Proof.Machine

/-! ### Encoding -/

/-- Words written out from the layouts of 30_encoding.md R62 and R63, one or more for each command, and reserved words
of each kind (R68), decode to what they stand for. -/
def Obligations.SpecWordsDecodeToTheirCommands : Prop :=
  decode 0b0000000100000000010011010000000000000000#40 = .ok (.enc1 0x4D#8) ∧
  decode 0b0000001010101010010011010110000111111111#40 = .ok (.enc2 0x4D#8 0x61#8) ∧
  decode 0b0000001100000000010011010110000101101110#40 = .ok (.enc3 0x4D#8 0x61#8 0x6E#8) ∧
  decode 0b0100001101010100010101110100011001110101#40 = .ok (.dec [0x54#8, 0x57#8, 0x46#8, 0x75#8]) ∧
  decode 0b0100100101010100010101110100011001110101#40 = .ok (.decl [0x54#8, 0x57#8]) ∧
  decode 0b0100101101010100010100010011110100111101#40 = .ok (.decl [0x54#8, 0x51#8, 0x3D#8, 0x3D#8]) ∧
  decode 0x0000000000#40 = .error .encoderCount ∧
  decode 0x044D616E00#40 = .error .encoderBits ∧
  decode 0x4C54574675#40 = .error .decoderBits ∧
  decode 0x5354574675#40 = .error .decoderBits ∧
  decode 0x8354574675#40 = .error .op ∧
  decode 0xC300000000#40 = .error .op

/-- Decoding the encoding of a well-formed command gives it back, every operand at every value (R62 to R64, R70). -/
def Obligations.DecodeOfEncodeGivesTheCommandBack : Prop :=
  ∀ i : Instr, i.wellFormed = true → decode (encode i) = .ok i

/-- A word that decodes gives a well-formed command, whose encoding is the word with its ignored bits zero
(R65, R70, R71). -/
def Obligations.EncodeOfDecodeZeroFillsIgnoredBits : Prop :=
  ∀ (w : Word) (i : Instr), decode w = .ok i → i.wellFormed = true ∧ encode i = w &&& i.usedMask

/-- The class of a word is that of its control byte by the table of R67 and its match and mask list, the decoder reads
exactly that class, and the response of a word is the one its class gives. -/
def Obligations.ControlByteAloneDecidesTheClass : Prop :=
  (∀ w : Word,
    (classify w = .enc1 ↔ controlByte w = 0x01#8) ∧
    (classify w = .enc2 ↔ controlByte w = 0x02#8) ∧
    (classify w = .enc3 ↔ controlByte w = 0x03#8) ∧
    (classify w = .dec ↔ controlByte w ∈ [0x40#8, 0x41#8, 0x42#8, 0x43#8]) ∧
    (classify w = .decl ↔ controlByte w ∈ [0x48#8, 0x49#8, 0x4A#8, 0x4B#8]) ∧
    (classify w = .rsvd ↔ (controlByte w).toNat = 0 ∨ (0x04 ≤ (controlByte w).toNat ∧ (controlByte w).toNat ≤ 0x3F) ∨
      (0x44 ≤ (controlByte w).toNat ∧ (controlByte w).toNat ≤ 0x47) ∨ 0x4C ≤ (controlByte w).toNat)) ∧
  (∀ w : Word,
    (classify w = .enc1 ↔ controlByte w &&& 0xFF#8 = 0x01#8) ∧
    (classify w = .enc2 ↔ controlByte w &&& 0xFF#8 = 0x02#8) ∧
    (classify w = .enc3 ↔ controlByte w &&& 0xFF#8 = 0x03#8) ∧
    (classify w = .dec ↔ controlByte w &&& 0xFC#8 = 0x40#8) ∧
    (classify w = .decl ↔ controlByte w &&& 0xFC#8 = 0x48#8)) ∧
  (∀ w : Word, match decode w with
    | .ok i => classify w = i.cls ∧ ∀ s : State, exec i s = .next (s.offerResponse (respond w))
    | .error _ => classify w = .rsvd ∧ respond w = 0xC000000000#40)

/-- Exactly 11 control-byte values are legal, 3 for the encoder and 8 for the decoder; 245 are reserved; and each legal
value is the control byte of a well-formed command of one of the five mnemonics (R69). -/
def Obligations.ExactlyElevenControlBytesAreLegal : Prop :=
  (List.range 256).filter (fun n => classifyControl (BitVec.ofNat 8 n) ≠ .rsvd) =
    [0x01, 0x02, 0x03, 0x40, 0x41, 0x42, 0x43, 0x48, 0x49, 0x4A, 0x4B] ∧
  ((List.range 256).filter (fun n => classifyControl (BitVec.ofNat 8 n) = .rsvd)).length = 245 ∧
  ∀ c : Byte, classifyControl c ≠ .rsvd → ∃ i : Instr, i.wellFormed = true ∧ controlByte (encode i) = c

/-- Words that agree on the control byte and on the lanes the command uses get the same response: the other bits have
no effect, and so are never checked (R65). -/
def Obligations.IgnoredBitsHaveNoEffectOnTheResponse : Prop :=
  ∀ w w' : Word, controlByte w = controlByte w' →
    (controlByte w = 0x01#8 → encoderByte w 0 = encoderByte w' 0 → respond w = respond w') ∧
    (controlByte w = 0x02#8 → (∀ j < 2, encoderByte w j = encoderByte w' j) → respond w = respond w') ∧
    (controlByte w = 0x03#8 → (∀ j < 3, encoderByte w j = encoderByte w' j) → respond w = respond w') ∧
    (classify w = .dec ∨ classify w = .decl →
      (∀ k < suppliedCount w, decoderChar w k = decoderChar w' k) → respond w = respond w')

/-- The line the disassembler prints for any word assembles to that word with its ignored bits zero. A word and its
zero-filled word print the same line. A word prints under the mnemonic of its own class, and exactly the reserved words
print as `.cmd` and their ten hex digits (R70, R71). How a byte and a character are printed is the model's choice within
R70 (log 9). -/
def Obligations.DisassembledLineAssemblesToTheZeroFilledWord : Prop :=
  (∀ w : Word, assembleLine (disassemble w) = some [canonicalWord w]) ∧
  (∀ w : Word, disassemble (canonicalWord w) = disassemble w) ∧
  (∀ (w : Word) (i : Instr), decode w = .ok i →
    canonicalWord w = w &&& i.usedMask ∧ i.mnemonic.toList ++ [' '] <+: disassemble w) ∧
  (∀ w : Word,
    (classify w = .enc1 ↔ "ENC1 ".toList <+: disassemble w) ∧
    (classify w = .enc2 ↔ "ENC2 ".toList <+: disassemble w) ∧
    (classify w = .enc3 ↔ "ENC3 ".toList <+: disassemble w) ∧
    (classify w = .dec ↔ "DEC ".toList <+: disassemble w) ∧
    (classify w = .decl ↔ "DECL ".toList <+: disassemble w) ∧
    (classify w = .rsvd ↔ ".cmd 0x".toList <+: disassemble w) ∧
    (classify w = .rsvd → canonicalWord w = w ∧ (disassemble w).length = 17))

/-- The example lines of R70, and a comment, an escape and both pseudo-instructions (R72), assemble to their words. That
commas separate the byte list of ENCODE, and that a blank line or a comment gives no word, is the model's choice
(log 9). -/
def Obligations.AssemblerExampleLines : Prop :=
  assembleLine "ENC3 'M','a','n'".toList = some [0x03004D616E#40] ∧
  assembleLine "DEC \"TWFu\"".toList = some [0x4354574675#40] ∧
  assembleLine "DECL \"TQ==\" ; final group".toList = some [0x4B54513D3D#40] ∧
  assembleLine "DEC \"TW\\nu\"".toList = some [0x4354570A75#40] ∧
  assembleLine ".cmd 0x8354574675".toList = some [0x8354574675#40] ∧
  assembleLine "ENCODE 0x4D, 0x61, 0x6E, 0x4D".toList = some [0x03004D616E#40, 0x01004D0000#40] ∧
  assembleLine "DECODE \"3q2+7w\"".toList = some [0x433371322B#40, 0x4937770000#40] ∧
  assembleLine "; nothing".toList = some []

/-! ### The ROMs -/

/-- FWD holds the alphabet in the order of R41, by its five ranges and by its full table. -/
def Obligations.FwdHoldsTheAlphabetInOrder : Prop :=
  (∀ i : Index, (fwd i).toNat =
    if i.toNat ≤ 25 then 0x41 + i.toNat
    else if i.toNat ≤ 51 then 0x61 + (i.toNat - 26)
    else if i.toNat ≤ 61 then 0x30 + (i.toNat - 52)
    else if i.toNat = 62 then 0x2B else 0x2F) ∧
  (List.range 64).map (fun n => fwd (BitVec.ofNat 6 n)) =
    "ABCDEFGHIJKLMNOPQRSTUVWXYZabcdefghijklmnopqrstuvwxyz0123456789+/".toList.map (fun c => BitVec.ofNat 8 c.toNat)

/-- The 64 entries of FWD are distinct and none is `=` (R42). -/
def Obligations.FwdEntriesAreDistinctAndNeverPadding : Prop :=
  (∀ i j : Index, fwd i = fwd j → i = j) ∧ ∀ i : Index, fwd i ≠ 0x3D#8

/-- INV is the inverse of FWD, with `=` as PAD and every other code BAD (R43). -/
def Obligations.InvIsTheInverseOfFwd : Prop :=
  ∀ c : Byte,
    (∀ i : Index, inv c = .idx i ↔ fwd i = c) ∧
    (inv c = .pad ↔ c = 0x3D#8) ∧
    (inv c = .bad ↔ c ≠ 0x3D#8 ∧ ∀ i : Index, fwd i ≠ c)

/-- INV has 64 IDX, 1 PAD and 191 BAD entries; white space, `-`, `_` and all of 0x80 to 0xFF are BAD (R44). -/
def Obligations.InvEntryCountsAndBadCodes : Prop :=
  ((List.range 256).filter (fun n => (inv (BitVec.ofNat 8 n)) = .bad)).length = 191 ∧
  ((List.range 256).filter (fun n => (inv (BitVec.ofNat 8 n)) = .pad)).length = 1 ∧
  ((List.range 256).filter (fun n => (inv (BitVec.ofNat 8 n)) ≠ .pad ∧ (inv (BitVec.ofNat 8 n)) ≠ .bad)).length = 64 ∧
  (∀ c ∈ [0x20#8, 0x09#8, 0x0A#8, 0x0D#8, 0x2D#8, 0x5F#8], inv c = .bad) ∧
  ∀ c : Byte, 0x80 ≤ c.toNat → inv c = .bad

/-! ### The encoder commands -/

/-- ENC3 (R85): operands, encoding, response and corner cases; nothing but the response port changes. -/
def Obligations.Enc3EncodesAFullGroup : Prop :=
  (∀ (b0 b1 b2 : Byte) (s : State),
    let acc : BitVec 24 := b0 ++ b1 ++ b2
    exec (.enc3 b0 b1 b2) s = .next { s with
      rspValid := true
      rspData := 0x03#8 ++ fwd (acc.extractLsb' 18 6) ++ fwd (acc.extractLsb' 12 6) ++ fwd (acc.extractLsb' 6 6) ++
        fwd (acc.extractLsb' 0 6) }) ∧
  (∀ w : Word, w &&& 0xFF00000000#40 = 0x0300000000#40 →
    decode w = .ok (.enc3 (w.extractLsb' 16 8) (w.extractLsb' 8 8) (w.extractLsb' 0 8))) ∧
  (∀ (b0 b1 b2 : Byte) (k : Nat), k < 4 → rspLane (respond (encode (.enc3 b0 b1 b2))) k ≠ 0x3D#8) ∧
  respond 0x0300000000#40 = 0x0341414141#40 ∧ respond 0x0300FFFFFF#40 = 0x032F2F2F2F#40 ∧
  respond 0x0300FBEFBE#40 = 0x032B2B2B2B#40 ∧ respond 0x03004D616E#40 = 0x0354574675#40 ∧
  respond 0x03FF4D616E#40 = 0x0354574675#40

/-- ENC2 (R86): operands, encoding, response and corner cases; nothing but the response port changes. -/
def Obligations.Enc2EncodesATwoByteGroup : Prop :=
  (∀ (b0 b1 : Byte) (s : State),
    let acc : BitVec 24 := b0 ++ b1 ++ 0x00#8
    exec (.enc2 b0 b1) s = .next { s with
      rspValid := true
      rspData := 0x02#8 ++ fwd (acc.extractLsb' 18 6) ++ fwd (acc.extractLsb' 12 6) ++ fwd (acc.extractLsb' 6 6) ++
        0x3D#8 }) ∧
  (∀ w : Word, w &&& 0xFF00000000#40 = 0x0200000000#40 →
    decode w = .ok (.enc2 (w.extractLsb' 16 8) (w.extractLsb' 8 8))) ∧
  (∀ b0 b1 : Byte, rspLane (respond (encode (.enc2 b0 b1))) 2 = fwd (b1.extractLsb' 0 4 ++ 0#2)) ∧
  respond 0x0200000000#40 = 0x024141413D#40 ∧ respond 0x0200FFFF00#40 = 0x022F2F383D#40 ∧
  respond 0x02AA4D61FF#40 = respond 0x02004D6100#40 ∧ respond 0x02004D6100#40 = 0x025457453D#40

/-- ENC1 (R87): operands, encoding, response and corner cases; nothing but the response port changes. -/
def Obligations.Enc1EncodesAOneByteGroup : Prop :=
  (∀ (b0 : Byte) (s : State),
    let acc : BitVec 24 := b0 ++ 0x0000#16
    exec (.enc1 b0) s = .next { s with
      rspValid := true
      rspData := 0x01#8 ++ fwd (acc.extractLsb' 18 6) ++ fwd (acc.extractLsb' 12 6) ++ 0x3D#8 ++ 0x3D#8 }) ∧
  (∀ w : Word, w &&& 0xFF00000000#40 = 0x0100000000#40 → decode w = .ok (.enc1 (w.extractLsb' 16 8))) ∧
  (∀ b0 : Byte, rspLane (respond (encode (.enc1 b0))) 1 = fwd (b0.extractLsb' 0 2 ++ 0#4) ∧
    rspLane (respond (encode (.enc1 b0))) 1 ∈ [0x41#8, 0x51#8, 0x67#8, 0x77#8]) ∧
  respond 0x0100000000#40 = 0x0141413D3D#40 ∧ respond 0x0100FF0000#40 = 0x012F773D3D#40 ∧
  respond 0x01FF4DFFFF#40 = respond 0x01004D0000#40 ∧ respond 0x01004D0000#40 = 0x0154513D3D#40

/-- Every encoder command succeeds with `count = n`; its characters are FWD entries but for exactly `3 − n` `=`, all at
the end (R84, R88). -/
def Obligations.EncoderOutputIsAlphabetWithTrailingPadding : Prop :=
  ∀ (i : Instr) (n : Nat) (s : State),
    ((∃ b0, i = .enc1 b0) ∧ n = 1 ∨ (∃ b0 b1, i = .enc2 b0 b1) ∧ n = 2 ∨ (∃ b0 b1 b2, i = .enc3 b0 b1 b2) ∧ n = 3) →
    ∃ t, exec i s = .next t ∧
      rspErr t.rspData = false ∧ rspCause t.rspData = 0#3 ∧ rspZero t.rspData = 0#2 ∧
      rspCount t.rspData = BitVec.ofNat 2 n ∧
      (∀ k < 4, k ≤ n → ∃ j : Index, rspLane t.rspData k = fwd j) ∧
      (∀ k < 4, n < k → rspLane t.rspData k = 0x3D#8) ∧
      (groupChars t.rspData).count 0x3D#8 = 3 - n

/-! ### The decoder commands -/

/-- DEC (R110): encoding, the checks in order, response and corner cases; nothing but the response port changes. -/
def Obligations.DecDecodesANonFinalGroup : Prop :=
  (∀ (text : List Byte) (s : State), text.length ≠ 4 →
    exec (.dec text) s = .next { s with rspValid := true, rspData := 0x9000000000#40 }) ∧
  (∀ (c0 c1 c2 c3 : Byte) (s : State), 0x3D#8 ∈ [c0, c1, c2, c3] →
    exec (.dec [c0, c1, c2, c3]) s = .next { s with rspValid := true, rspData := 0xA000000000#40 }) ∧
  (∀ (c0 c1 c2 c3 : Byte) (s : State), 0x3D#8 ∉ [c0, c1, c2, c3] → (∃ c ∈ [c0, c1, c2, c3], inv c = .bad) →
    exec (.dec [c0, c1, c2, c3]) s = .next { s with rspValid := true, rspData := 0xB000000000#40 }) ∧
  (∀ (c0 c1 c2 c3 : Byte) (v0 v1 v2 v3 : Index) (s : State),
    inv c0 = .idx v0 → inv c1 = .idx v1 → inv c2 = .idx v2 → inv c3 = .idx v3 →
    exec (.dec [c0, c1, c2, c3]) s = .next { s with
      rspValid := true
      rspData := 0x03#8 ++ 0x00#8 ++ (v0 ++ v1 ++ v2 ++ v3) }) ∧
  (∀ w : Word, w &&& 0xFC00000000#40 = 0x4000000000#40 →
    decode w = .ok (.dec ([w.extractLsb' 24 8, w.extractLsb' 16 8, w.extractLsb' 8 8, w.extractLsb' 0 8].take
      ((w.extractLsb' 32 2).toNat + 1)))) ∧
  respond 0x4341414141#40 = 0x0300000000#40 ∧ respond 0x432F2F2F2F#40 = 0x0300FFFFFF#40 ∧
  respond 0x435457453D#40 = 0xA000000000#40 ∧ respond 0x432D5F4141#40 = 0xB000000000#40 ∧
  respond 0x4354572075#40 = 0xB000000000#40 ∧ respond 0x4354570A75#40 = 0xB000000000#40 ∧
  respond 0x4354574675#40 = 0x03004D616E#40

/-- DECL (R111): encoding, the checks in order, response for each padding count, and corner cases; nothing but the
response port changes. -/
def Obligations.DeclDecodesTheFinalGroup : Prop :=
  (∀ (text : List Byte) (s : State), text.length ≠ 4 →
    exec (.decl text) s = .next { s with rspValid := true, rspData := 0x9000000000#40 }) ∧
  (∀ (c0 c1 c2 c3 : Byte) (s : State),
    (c0 == 0x3D#8, c1 == 0x3D#8, c2 == 0x3D#8, c3 == 0x3D#8) ∉
      [(false, false, false, false), (false, false, false, true), (false, false, true, true)] →
    exec (.decl [c0, c1, c2, c3]) s = .next { s with rspValid := true, rspData := 0xA000000000#40 }) ∧
  (∀ (c0 c1 c2 c3 : Byte) (s : State), 0x3D#8 ∉ [c0, c1, c2, c3] → (∃ c ∈ [c0, c1, c2, c3], inv c = .bad) →
    exec (.decl [c0, c1, c2, c3]) s = .next { s with rspValid := true, rspData := 0xB000000000#40 }) ∧
  (∀ (c0 c1 c2 : Byte) (s : State), 0x3D#8 ∉ [c0, c1, c2] → (∃ c ∈ [c0, c1, c2], inv c = .bad) →
    exec (.decl [c0, c1, c2, 0x3D#8]) s = .next { s with rspValid := true, rspData := 0xB000000000#40 }) ∧
  (∀ (c0 c1 : Byte) (s : State), 0x3D#8 ∉ [c0, c1] → (∃ c ∈ [c0, c1], inv c = .bad) →
    exec (.decl [c0, c1, 0x3D#8, 0x3D#8]) s = .next { s with rspValid := true, rspData := 0xB000000000#40 }) ∧
  (∀ (c0 c1 c2 c3 : Byte) (v0 v1 v2 v3 : Index) (s : State),
    inv c0 = .idx v0 → inv c1 = .idx v1 → inv c2 = .idx v2 → inv c3 = .idx v3 →
    exec (.decl [c0, c1, c2, c3]) s = .next { s with
      rspValid := true
      rspData := 0x03#8 ++ 0x00#8 ++ (v0 ++ v1 ++ v2 ++ v3) }) ∧
  (∀ (c0 c1 c2 : Byte) (v0 v1 v2 : Index) (s : State),
    inv c0 = .idx v0 → inv c1 = .idx v1 → inv c2 = .idx v2 →
    exec (.decl [c0, c1, c2, 0x3D#8]) s = .next { s with
      rspValid := true
      rspData :=
        if v2.extractLsb' 0 2 ≠ 0#2 then 0xA000000000#40 else 0x02#8 ++ 0x00#8 ++ (v0 ++ v1 ++ v2 ++ 0#6) }) ∧
  (∀ (c0 c1 : Byte) (v0 v1 : Index) (s : State), inv c0 = .idx v0 → inv c1 = .idx v1 →
    exec (.decl [c0, c1, 0x3D#8, 0x3D#8]) s = .next { s with
      rspValid := true
      rspData := if v1.extractLsb' 0 4 ≠ 0#4 then 0xA000000000#40 else 0x01#8 ++ 0x00#8 ++ (v0 ++ v1 ++ 0#12) }) ∧
  (∀ w : Word, w &&& 0xFC00000000#40 = 0x4800000000#40 →
    decode w = .ok (.decl ([w.extractLsb' 24 8, w.extractLsb' 16 8, w.extractLsb' 8 8, w.extractLsb' 0 8].take
      ((w.extractLsb' 32 2).toNat + 1)))) ∧
  respond 0x4B54574675#40 = 0x03004D616E#40 ∧ respond 0x4B5457453D#40 = 0x02004D6100#40 ∧
  respond 0x4B54513D3D#40 = 0x01004D0000#40 ∧ respond 0x4B5457463D#40 = 0xA000000000#40 ∧
  respond 0x4B54523D3D#40 = 0xA000000000#40 ∧ respond 0x4B543D3D3D#40 = 0xA000000000#40 ∧
  respond 0x4B3D3D3D3D#40 = 0xA000000000#40 ∧ respond 0x4B3D414141#40 = 0xA000000000#40 ∧
  respond 0x4B413D4141#40 = 0xA000000000#40 ∧ respond 0x4B41413D41#40 = 0xA000000000#40 ∧
  respond 0x4B542A3D3D#40 = 0xB000000000#40 ∧ respond 0x4B2A413D41#40 = 0xA000000000#40 ∧
  respond 0x4B41413D3D#40 = 0x0100000000#40 ∧ respond 0x4B4141413D#40 = 0x0200000000#40 ∧
  (∀ (c0 c1 c2 c3 : Byte), 0x80 ≤ c0.toNat → 0x3D#8 ∉ [c1, c2, c3] →
    respond (encode (.decl [c0, c1, c2, c3])) = 0xB000000000#40)

/-- In a success response of a decoder command [31:24] is 0 and every byte at a position `≥ count` is zero (R112). -/
def Obligations.DecoderSuccessHasAZeroTail : Prop :=
  ∀ (text : List Byte) (i : Instr) (s t : State), (i = .dec text ∨ i = .decl text) → exec i s = .next t →
    rspErr t.rspData = false →
    rspLane t.rspData 0 = 0x00#8 ∧ ∀ k < 3, (rspCount t.rspData).toNat ≤ k → rspLane t.rspData (k + 1) = 0x00#8

/-- Space, tab, carriage return, line feed, `-`, `_` and every code 0x80 to 0xFF in a non-padding position of a legally
padded group give CHAR (R113). A legally padded group of DEC has no `=`. -/
def Obligations.NeverAcceptedCharactersGiveChar : Prop :=
  ∀ (c0 c1 c2 c3 x : Byte) (s : State), x ∈ [0x20#8, 0x09#8, 0x0D#8, 0x0A#8, 0x2D#8, 0x5F#8] ∨ 0x80 ≤ x.toNat →
    (0x3D#8 ∉ [c0, c1, c2, c3] → x ∈ [c0, c1, c2, c3] →
      exec (.dec [c0, c1, c2, c3]) s = .next { s with rspValid := true, rspData := 0xB000000000#40 } ∧
      exec (.decl [c0, c1, c2, c3]) s = .next { s with rspValid := true, rspData := 0xB000000000#40 }) ∧
    (0x3D#8 ∉ [c0, c1, c2] → x ∈ [c0, c1, c2] →
      exec (.decl [c0, c1, c2, 0x3D#8]) s = .next { s with rspValid := true, rspData := 0xB000000000#40 }) ∧
    (0x3D#8 ∉ [c0, c1] → x ∈ [c0, c1] →
      exec (.decl [c0, c1, 0x3D#8, 0x3D#8]) s = .next { s with rspValid := true, rspData := 0xB000000000#40 })

/-- The four characters an encoder command answers, sent as DECL with `m = 4`, succeed with `count = n` and give the
bytes back; for `n = 3` DEC does too (R114). -/
def Obligations.GroupRoundTrip : Prop :=
  ∀ (b0 b1 b2 : Byte) (s : State),
    (∃ t, exec (.enc1 b0) s = .next t ∧
      exec (.decl (groupChars t.rspData)) t = .next { t with rspData := 0x01#8 ++ 0x00#8 ++ b0 ++ 0x00#8 ++ 0x00#8 }) ∧
    (∃ t, exec (.enc2 b0 b1) s = .next t ∧
      exec (.decl (groupChars t.rspData)) t = .next { t with rspData := 0x02#8 ++ 0x00#8 ++ b0 ++ b1 ++ 0x00#8 }) ∧
    (∃ t, exec (.enc3 b0 b1 b2) s = .next t ∧
      exec (.decl (groupChars t.rspData)) t = .next { t with rspData := 0x03#8 ++ 0x00#8 ++ b0 ++ b1 ++ b2 } ∧
      exec (.dec (groupChars t.rspData)) t = .next { t with rspData := 0x03#8 ++ 0x00#8 ++ b0 ++ b1 ++ b2 })

/-! ### Responses and errors -/

/-- Every response word: [35:34] is 00; on success `cause = 0` and `count` is 1 to 3, on failure the cause is 1 to 4,
`count = 0` and `dout = 0`; so codes 5 to 7 are never produced. An encoder response has `count = n`, a decoder success
has 0x00 in [31:24] (R66). -/
def Obligations.ResponseFieldsOfEveryWord : Prop :=
  ∀ w : Word,
    rspZero (respond w) = 0#2 ∧
    (rspErr (respond w) = false →
      rspCause (respond w) = 0#3 ∧ 1 ≤ (rspCount (respond w)).toNat ∧
      ((classify w = .dec ∨ classify w = .decl) → rspLane (respond w) 0 = 0x00#8) ∧
      ((classify w = .enc1 ∨ classify w = .enc2 ∨ classify w = .enc3) → rspCount (respond w) = countField w)) ∧
    (rspErr (respond w) = true →
      (rspCause (respond w) = 1#3 ∨ rspCause (respond w) = 2#3 ∨ rspCause (respond w) = 3#3 ∨
        rspCause (respond w) = 4#3) ∧
      rspCount (respond w) = 0#2 ∧ (respond w).extractLsb' 0 32 = 0#32)

/-- A reserved word is answered with 0xC000000000 and changes nothing else, in every state (R68). -/
def Obligations.ReservedWordsGetTheCmdResponse : Prop :=
  ∀ (w : Word) (s : State), classify w = .rsvd →
    runCommand w s = .next { s with rspValid := true, rspData := 0xC000000000#40 }

/-- Only DEC and DECL report a cause LEN, PAD or CHAR, and an encoder command never fails (R150). -/
def Obligations.OnlyDecoderCommandsReportMalformedInput : Prop :=
  ∀ w : Word,
    (rspErr (respond w) = true → rspCause (respond w) ∈ [1#3, 2#3, 3#3] → classify w = .dec ∨ classify w = .decl) ∧
    (classify w = .enc1 ∨ classify w = .enc2 ∨ classify w = .enc3 → rspErr (respond w) = false)

/-- The response to a command word is a function of the word alone, in every state; the rest of the state stays, and
processing the word again changes nothing (R25, R50). -/
def Obligations.ResponseDependsOnTheWordAlone : Prop :=
  ∀ (w : Word) (s s' : State),
    (∃ t t', runCommand w s = .next t ∧ runCommand w s' = .next t' ∧ t.rspData = t'.rspData ∧
      t = { s with rspValid := true, rspData := t.rspData } ∧ runCommand w t = .next t)

/-- Every command completes, and it changes the response port and nothing else: every other port, the queue and the host's side stay
(R50, R74). -/
def Obligations.CommandsChangeOnlyTheResponsePort : Prop :=
  ∀ (i : Instr) (s : State), ∃ t, exec i s = .next t ∧
    t.rspValid = true ∧
    t.rst = s.rst ∧ t.cmdValid = s.cmdValid ∧ t.cmdData = s.cmdData ∧ t.cmdReady = s.cmdReady ∧
    t.rspReady = s.rspReady ∧ t.q = s.q ∧ t.program = s.program ∧ t.moves = s.moves ∧ t.habit = s.habit ∧
    t.trace = s.trace ∧ t.draws = s.draws

/-! ### Ports, transactions and reset -/

/-- In a cycle without reset in which no response is held and the head's latency is over, a step is `exec` of the
decoded head at the state the agents have driven, and then the rising edge; a reserved head is answered with cause CMD
(R26, R29, R68). -/
def Obligations.StepRunsTheDecodedCommand : Prop :=
  ∀ (s : State) (w : Word) (rest : List Word), s.nextMove.rst = false → s.nextMove.answer = true →
    s.rspValid = false → s.q = w :: rest →
    (∀ i, decode w = .ok i → step s = finishCycle (exec i (s.drive s.nextMove))) ∧
    (∀ e, decode w = .error e →
      step s = .next ((s.drive s.nextMove).offerResponse 0xC000000000#40).edge)

/-- The word placed by `withFetchWord` is what the next step runs (the model's loading, log 2). -/
def Obligations.FetchedTableWordRunsNext : Prop :=
  ∀ (s : State) (nbits w : Nat) (i : Instr), decodeTableWord nbits w = some i →
    step (s.withFetchWord nbits w) = finishCycle (exec i ((s.withFetchWord nbits w).drive Move.eager))

/-- Every cycle ends in a next state: the block has no trap and a full queue is no fault (R154, R175). -/
def Obligations.EveryCycleCompletes : Prop := ∀ s : State, ∃ t, step s = .next t

/-- The state right after reset has an empty queue and offers no response (R31). -/
def Obligations.ResetStateIsEmptyAndQuiet : Prop :=
  State.reset.q = [] ∧ State.reset.rspValid = false ∧ State.reset.Inv

/-- At a rising edge with `rst = 1` the queue becomes empty, `rsp_valid` is 0, nothing is delivered and nothing is
accepted, whatever is in flight, and what was in flight gets no response, ever: in every run from there, with more resets
or none, the responses are those of commands the host had not transferred at the reset, in their order (R170). -/
def Obligations.ResetCycleDropsEverythingInFlight : Prop :=
  ∀ s : State, s.nextMove.rst = true →
    ∃ t, step s = .next t ∧ t.q = [] ∧ t.rspValid = false ∧ t.trace = s.trace ++ [Event.reset] ∧
      (s.Inv → ∀ n u, State.Reaches n t u →
        ∃ xs, u.received = s.received ++ xs ∧ xs.Sublist ((s.pending ++ s.program).map respond))

/-- On the first edge after a reset cycle no response transfers, and `rsp_valid` is still 0 after it, as no command was
in the queue (R31). -/
def Obligations.NoResponseOnTheFirstEdgeAfterReset : Prop :=
  ∀ s t u : State, s.nextMove.rst = true → step s = .next t → step t = .next u →
    u.received = s.received ∧ u.rspValid = false

/-- What transfers at a rising edge: a response where `rsp_valid`, `rsp_ready` are 1 and `rst` is 0, a command where
`cmd_valid`, `cmd_ready` are 1 and `rst` is 0, nothing else (R26); with `rst` = 1 the queue becomes empty (R170). That the
response stands before the command in the history of one edge is the model's choice (log 6). -/
def Obligations.TransfersHappenExactlyOnTheHandshakes : Prop :=
  ∀ s : State,
    (s.rst = true → s.edge.trace = s.trace ++ [Event.reset] ∧ s.edge.q = []) ∧
    (s.rst = false →
      s.edge.trace = s.trace ++ (if s.rspValid = true ∧ s.rspReady = true then [Event.respond s.rspData] else []) ++
        (if s.cmdValid = true ∧ s.cmdReady = true then [Event.accept s.cmdData] else []) ∧
      s.edge.q = (if s.rspValid = true ∧ s.rspReady = true then s.q.tail else s.q) ++
        (if s.cmdValid = true ∧ s.cmdReady = true then [s.cmdData] else []) ∧
      (s.edge.cmdValid = true ↔ s.cmdValid = true ∧ s.cmdReady = false) ∧
      (s.edge.rspValid = true ↔ s.rspValid = true ∧ s.rspReady = false))

/-- Handshakes hold their data: a response not taken stays offered unchanged, and an offer not accepted stays offered
unchanged, in every cycle without reset (R26). -/
def Obligations.UntransferredOffersAreHeldUnchanged : Prop :=
  ∀ s t : State, step s = .next t → s.nextMove.rst = false →
    (s.rspValid = true → s.nextMove.take = false → t.rspValid = true ∧ t.rspData = s.rspData ∧ t.received = s.received) ∧
    (s.cmdValid = true → acceptedOf t.trace = acceptedOf s.trace →
      t.cmdValid = true ∧ t.cmdData = s.cmdData ∧ t.program = s.program)

/-- While the queue is full no command is accepted, in the cycle in which a response leaves either (the model's choice,
log 7); the offer waits, and once a response has left and the block is willing the offered command is accepted (R175). -/
def Obligations.FullQueueHoldsBackAccept : Prop :=
  ∀ s t : State, step s = .next t → s.nextMove.rst = false →
    (Config.qdepth ≤ s.q.length → acceptedOf t.trace = acceptedOf s.trace) ∧
    (s.q.length < Config.qdepth → s.cmdValid = true → s.nextMove.ready = true →
      acceptedOf t.trace = acceptedOf s.trace ++ [s.cmdData])

/-- `Inv` holds of every state a cycle leads to from a state of which it holds: the queue stays within QDEPTH, a held
response is that of the head, and the history is a run of R29 ending in the queue (R26, R27, R29). -/
def Obligations.EveryCycleKeepsTheInvariant : Prop :=
  ∀ s t : State, s.Inv → step s = .next t → t.Inv

/-- Each cycle is a run of the transactions of R29 on the queue: one Reset, or at most one Respond, which answers the
head the queue had before the cycle, and then at most one Accept, so that no command is answered in the cycle that
accepts it (R8, R29). -/
def Obligations.EveryCycleRefinesTheTransactionModel : Prop :=
  ∀ s t : State, s.Inv → step s = .next t →
    ∃ es, t.trace = s.trace ++ es ∧ replay Config.qdepth s.q es = some t.q ∧
      (es = [.reset] ∨ ∃ rs cs, es = rs ++ cs ∧
        (rs = [] ∨ ∃ h rest, s.q = h :: rest ∧ rs = [.respond (respond h)]) ∧
        (cs = [] ∨ ∃ c, (s.pending ++ s.program).head? = some c ∧ cs = [.accept c]))

/-- Since the last reset the i-th response is that of the i-th accepted command; none is reordered, dropped or
duplicated, and the commands still unanswered are the queue (R176). -/
def Obligations.ResponsesMatchAcceptedCommandsInOrder : Prop :=
  ∀ s : State, s.Inv →
    (acceptedOf (sinceReset s.trace)).map respond = responsesOf (sinceReset s.trace) ++ s.q.map respond

/-- No fence is needed: the host has received as many responses since the last reset as commands were accepted exactly
when every accepted command is done (R52). -/
def Obligations.EqualCountsMeanEveryCommandIsDone : Prop :=
  ∀ s : State, s.Inv →
    ((responsesOf (sinceReset s.trace)).length = (acceptedOf (sinceReset s.trace)).length ↔ s.q = [])

/-- In a run without reset no command is lost, duplicated or reordered, whatever the schedule: the responses received and
the responses due stay one and the same sequence (R29, R51). -/
def Obligations.ResponseSequenceDoesNotDependOnTheSchedule : Prop :=
  ∀ (n : Nat) (s t : State), s.Inv → s.noReset → State.Reaches n s t →
    t.received ++ t.outstanding.map respond = s.received ++ s.outstanding.map respond

/-- Progress (R30): while `rst` stays 0 and the host keeps `rsp_ready = 1`, the head of the queue is eventually
answered; while `rst` stays 0 and the queue has room, an offered command is eventually accepted. A block that acts
as soon as it may after a finite list of moves is the model's form of the fairness (log 1). -/
def Obligations.PendingWorkEventuallyTransfers : Prop :=
  (∀ (s : State) (h : Word) (rest : List Word), s.Inv → s.hostTakes → s.q = h :: rest →
    ∃ n t, State.Reaches n s t ∧ s.received ++ [respond h] <+: t.received) ∧
  (∀ s : State, s.noReset → s.q.length < Config.qdepth → s.cmdValid = true →
    ∃ n t, State.Reaches n s t ∧ acceptedOf s.trace ++ [s.cmdData] <+: acceptedOf t.trace)

/-- From every sound state with no reset to come, whose host goes on to offer and to take, every outstanding command is
answered, in order, each with its own response, and nothing is left (R29, R30; log 1). -/
def Obligations.EveryCommandIsAnsweredInOrder : Prop :=
  ∀ s : State, s.Inv → s.noReset → s.hostGoesOn →
    ∃ n t, State.Reaches n s t ∧ t.outstanding = [] ∧ t.received = s.received ++ s.outstanding.map respond

/-- Several requesters share the block through an arbiter that returns responses by acceptance order: each gets the
responses to its own commands in its own order, however the arbiter interleaves them (R142, R159), if no reset comes and the
arbiter goes on to offer and to take (log 1). -/
def Obligations.InterleavedRequestersGetTheirOwnResponses : Prop :=
  ∀ (s : State) (tagged : List (Nat × Word)), s.Inv → s.noReset → s.hostGoesOn →
    s.outstanding = tagged.map (fun p => p.2) →
    ∃ n t rs, State.Reaches n s t ∧ t.received = s.received ++ rs ∧ rs.length = tagged.length ∧
      ∀ id : Nat, (((tagged.map (fun p => p.1)).zip rs).filter (fun p => p.1 == id)).map (fun p => p.2) =
        (tagged.filter (fun p => p.1 == id)).map (fun p => respond p.2)

/-- Any command may follow any other in the very next cycle: two commands in the queue are answered in two eager cycles
(R174; eager cycles are log 1). -/
def Obligations.BackToBackCommandsHaveNoHazard : Prop :=
  ∀ (s : State) (w1 w2 : Word) (rest : List Word), s.moves = [] → s.habit = Habit.eager → s.q = w1 :: w2 :: rest →
    (s.rspValid = true → s.rspData = respond w1) →
    ∃ t, State.Reaches 2 s t ∧ t.received = s.received ++ [respond w1, respond w2]

/-! ### Whole sequences -/

/-- ENCODE expands to one ENC3 for each full group and one ENC2 or ENC1 for what is left, in order: `ceil(N/3)` commands
(R131, R132). -/
def Obligations.EncodeExpandsGroupByGroup : Prop :=
  ∀ d : List Byte,
    (encodeExpand d).length = (d.length + 2) / 3 ∧
    (∀ i < d.length / 3, (encodeExpand d)[i]? =
      some (.enc3 (d.getD (3 * i) 0#8) (d.getD (3 * i + 1) 0#8) (d.getD (3 * i + 2) 0#8))) ∧
    (d.length % 3 = 2 → (encodeExpand d)[d.length / 3]? =
      some (.enc2 (d.getD (3 * (d.length / 3)) 0#8) (d.getD (3 * (d.length / 3) + 1) 0#8))) ∧
    (d.length % 3 = 1 → (encodeExpand d)[d.length / 3]? = some (.enc1 (d.getD (3 * (d.length / 3)) 0#8)))

/-- The text of ENCODE is the four characters of each response, in command order; no response fails, the length is `4 · ceil(N/3)`, and it holds 0, 2 or 1 `=` for `N mod 3` = 0, 1
or 2, all at its end (R133). -/
def Obligations.EncodedTextLengthAndPadding : Prop :=
  ∀ d : List Byte,
    encodeBytes d = ((encodeExpand d).map (fun i => respond (encode i))).flatMap
      (fun r => [r.extractLsb' 24 8, r.extractLsb' 16 8, r.extractLsb' 8 8, r.extractLsb' 0 8]) ∧
    (∀ r ∈ responsesTo (encodeExpand d), rspErr r = false) ∧
    (encodeBytes d).length = 4 * ((d.length + 2) / 3) ∧
    ∃ body, encodeBytes d = body ++ List.replicate ((3 - d.length % 3) % 3) 0x3D#8 ∧ 0x3D#8 ∉ body

/-- DECODE expands to DEC for every group but the last and DECL for the last, `ceil(T/4)` commands, the last with the
characters that are left (R134, R135). -/
def Obligations.DecodeExpandsGroupByGroup : Prop :=
  ∀ t : List Byte,
    (decodeExpand t).length = (t.length + 3) / 4 ∧
    (∀ i, i + 1 < (t.length + 3) / 4 → (decodeExpand t)[i]? = some (.dec ((t.drop (4 * i)).take 4))) ∧
    (t ≠ [] → (decodeExpand t)[(t.length + 3) / 4 - 1]? = some (.decl (t.drop (4 * ((t.length + 3) / 4 - 1)))))

/-- The result of DECODE is all or nothing, and its cause is LEN when the length is no multiple of 4, else that of the
first failing response (R136, R137). -/
def Obligations.DecodeIsAllOrNothingWithTheFirstCause : Prop :=
  ∀ t : List Byte,
    (t = [] → decodeText t = .ok []) ∧
    (t.length % 4 ≠ 0 → decodeText t = .error 1#3) ∧
    (t.length % 4 = 0 → ∀ pre r post, responsesTo (decodeExpand t) = pre ++ r :: post →
      (∀ x ∈ pre, rspErr x = false) → rspErr r = true → decodeText t = .error (rspCause r)) ∧
    ((∀ r ∈ responsesTo (decodeExpand t), rspErr r = false) →
      decodeText t = .ok ((responsesTo (decodeExpand t)).flatMap
        (fun r => [r.extractLsb' 16 8, r.extractLsb' 8 8, r.extractLsb' 0 8].take (r.extractLsb' 32 2).toNat)))

/-- DECODE of ENCODE of any bytes succeeds with those bytes (R138). -/
def Obligations.DecodeOfEncodeRoundTrip : Prop :=
  ∀ d : List Byte, decodeText (encodeBytes d) = .ok d ∧ (encodeBytes d).length = 4 * ((d.length + 2) / 3) ∧
    (∀ i ∈ (decodeExpand (encodeBytes d)), rspErr (respond (encode i)) = false)

/-- DECODE succeeds with `d` on exactly one text, ENCODE of `d`: every other text fails (R102, R105, R138, R140). That a text
such as `AA=A` fails follows from R102, which the model puts before the literal text of R140 (f) (log 11). -/
def Obligations.DecodeAcceptsExactlyTheEncodedTexts : Prop :=
  ∀ (t d : List Byte), decodeText t = .ok d ↔ t = encodeBytes d

/-- Empty sequences issue no command and give empty results (R139). -/
def Obligations.EmptySequencesIssueNoCommand : Prop :=
  encodeExpand [] = [] ∧ decodeExpand [] = [] ∧ encodeBytes [] = [] ∧ decodeText [] = .ok []

/-- The rejections and acceptances of whole texts (R140): (a) a length that is no multiple of 4, (b) `=` before the last
two positions, (c) three or more trailing `=`, (d) nonzero leftover bits, (e) a character outside the alphabet, (f) every
text of alphabet characters and `p ≤ 2` trailing `=` whose length is a positive multiple of 4 and whose leftover bits are
zero succeeds with `3·(T/4) − p` bytes. In (b) to (e) the statement says that the text fails; which cause it reports is
the first failing group's. A final group such as `AA=A` fails by R102 though R140 (b) to (e) do not name it (log 11). -/
def Obligations.WholeTextRejectionsAndAcceptance : Prop :=
  ∀ t : List Byte,
    (t.length % 4 ≠ 0 → decodeText t = .error 1#3) ∧
    ((∃ k, k + 2 < t.length ∧ t[k]? = some 0x3D#8) → ∃ c, decodeText t = .error c) ∧
    ((∃ u, t = u ++ [0x3D#8, 0x3D#8, 0x3D#8]) → ∃ c, decodeText t = .error c) ∧
    ((∃ u c v, t = u ++ [c, 0x3D#8] ∧ inv c = .idx v ∧ v.extractLsb' 0 2 ≠ 0#2) → ∃ c, decodeText t = .error c) ∧
    ((∃ u c v, t = u ++ [c, 0x3D#8, 0x3D#8] ∧ inv c = .idx v ∧ v.extractLsb' 0 4 ≠ 0#4) →
      ∃ c, decodeText t = .error c) ∧
    ((∃ c ∈ t, inv c = .bad) → ∃ c, decodeText t = .error c) ∧
    (∀ (body : List Byte) (p : Nat), t.length % 4 = 0 → t = body ++ List.replicate p 0x3D#8 → p ≤ 2 → t ≠ [] →
      (∀ c ∈ body, ∃ v, inv c = .idx v) →
      (p = 1 → ∀ c v, body.getLast? = some c → inv c = .idx v → v.extractLsb' 0 2 = 0#2) →
      (p = 2 → ∀ c v, body.getLast? = some c → inv c = .idx v → v.extractLsb' 0 4 = 0#4) →
      ∃ d, decodeText t = .ok d ∧ d.length = 3 * (t.length / 4) - p)

/-- A character with no 8-bit code is sent as a code that INV maps to BAD, so a text that holds one fails; a character
with an 8-bit code is sent as that code (R135). That the code is 0x00 is the model's choice (log 10). -/
def Obligations.CharactersWithNoByteCodeFail : Prop :=
  (∀ c : Char, 256 ≤ c.toNat → inv (charCode c) = .bad) ∧
  (∀ c : Char, c.toNat < 256 → (charCode c).toNat = c.toNat) ∧
  ∀ (t : List Char) (c : Char), c ∈ t → 256 ≤ c.toNat → ∃ e, decodeChars t = .error e

/-- The source's own vectors (95_test_vectors.md L1-1 to L1-4), as ENCODE and DECODE of whole sequences. -/
def Obligations.SourceVectors : Prop :=
  let plain := "Many hands make light work.".toList.map charCode
  let coded := "TWFueSBoYW5kcyBtYWtlIGxpZ2h0IHdvcmsu".toList.map charCode
  encodeBytes plain = coded ∧ decodeText coded = .ok plain ∧
  decodeText ("3q2+7w".toList.map charCode) = .error 1#3 ∧
  encodeBytes [] = [] ∧ decodeText [] = .ok []

/-- ENCODE and DECODE run on the block: when the outstanding commands are an expansion, no reset comes and the host goes
on to offer and to take, the block answers them all, the responses are those of the expansion one for one, nothing is
left, and the host's combination of those responses is the result of the pseudo-instruction (R130, R133, R136; log 1). -/
def Obligations.PseudoInstructionsRunOnTheBlock : Prop :=
  ∀ s : State, s.Inv → s.noReset → s.hostGoesOn →
    (∀ d, s.outstanding = (encodeExpand d).map encode →
      ∃ n t rs, State.Reaches n s t ∧ t.outstanding = [] ∧ t.received = s.received ++ rs ∧
        rs = responsesTo (encodeExpand d) ∧ encodeCombine rs = encodeBytes d) ∧
    (∀ txt, s.outstanding = (decodeExpand txt).map encode →
      ∃ n t rs, State.Reaches n s t ∧ t.outstanding = [] ∧ t.received = s.received ++ rs ∧
        rs = responsesTo (decodeExpand txt) ∧ decodeCombine txt.length rs = decodeText txt)

/-! ### Back-pressure without end -/

/-- A host that never takes a response stalls the block for ever, and that is no fault (R175): every number of cycles
completes, no response is ever received, what is in the queue stays there, and with a full queue no command is ever
accepted and the offer waits unchanged. A habit is the model's form of "never" (log 1). -/
def Obligations.HostThatNeverTakesStallsTheBlock : Prop :=
  ∀ s : State, s.noReset → s.hostNeverTakes →
    (∀ n, ∃ t, State.Reaches n s t) ∧
    ∀ n t, State.Reaches n s t → t.received = s.received ∧ s.q <+: t.q ∧
      (Config.qdepth ≤ s.q.length → t.q = s.q ∧ acceptedOf t.trace = acceptedOf s.trace ∧
        (s.cmdValid = true → t.cmdValid = true ∧ t.cmdData = s.cmdData))

/-- The wait at a full queue ends with a response and not before, and it does end when the host takes responses (R29, R30,
R175; log 1): in a run without reset either nothing has been accepted yet or a response has been received; and from a
sound state whose host takes responses, the offered command is eventually accepted. -/
def Obligations.WaitAtAFullQueueEndsWithAResponse : Prop :=
  (∀ (n : Nat) (s t : State), s.noReset → Config.qdepth ≤ s.q.length → State.Reaches n s t →
    acceptedOf t.trace = acceptedOf s.trace ∨ s.received.length < t.received.length) ∧
  (∀ s : State, s.Inv → s.hostTakes → Config.qdepth ≤ s.q.length → s.cmdValid = true →
    ∃ n t, State.Reaches n s t ∧ acceptedOf s.trace ++ [s.cmdData] <+: acceptedOf t.trace)

/-! ### Source lines of whole sequences -/

/-- A line with ENCODE or DECODE assembles to the words of its expansion, in order, whatever the bytes or the text (R72).
That ENCODE takes its bytes as a string, as a list separated by commas, or as such a list in brackets is the model's
choice, and so is how a byte and a character are printed (log 9). -/
def Obligations.PseudoInstructionLinesExpand : Prop :=
  (∀ t : List Byte, assembleLine ("DECODE ".toList ++ printText t) = some ((decodeExpand t).map encode)) ∧
  (∀ d : List Byte, assembleLine ("ENCODE ".toList ++ printText d) = some ((encodeExpand d).map encode)) ∧
  (assembleLine "ENCODE".toList = some [] ∧ assembleLine "ENCODE []".toList = some []) ∧
  ∀ (b : Byte) (bs : List Byte),
    let listed := printByte b ++ bs.flatMap (fun x => [',', ' '] ++ printByte x)
    assembleLine ("ENCODE ".toList ++ listed) = some ((encodeExpand (b :: bs)).map encode) ∧
    assembleLine ("ENCODE [".toList ++ listed ++ [']']) = some ((encodeExpand (b :: bs)).map encode)
end

