-- ==== Sys2Proof/Laws/Assembler.lean ====
section
/-! SUPPORT. What is printed is read back: hex digits, bytes, characters, texts and words. -/

namespace Sys2Proof.Machine

theorem hexValue_hexDigit : ∀ v : BitVec 4, hexValue (hexDigit v) = some v := by decide

theorem hexByte_hexPair (b : Byte) : hexByte (hexDigit (b.extractLsb' 4 4)) (hexDigit (b.extractLsb' 0 4)) = some b := by
  simp only [hexByte, hexValue_hexDigit, Option.some.injEq]
  apply BitVec.eq_of_getLsbD_eq
  intro i hi
  simp only [BitVec.getLsbD_append, BitVec.getLsbD_extractLsb']
  grind

theorem readByte_printByte (b : Byte) (rest : List Char) : readByte (printByte b ++ rest) = some (b, rest) := by
  simp [readByte, printByte, hexPair, skipBlanks, hexByte_hexPair]

/-- One more byte of a list: a comma, a blank and a printed byte. -/
theorem readMoreBytes_printByte (fuel : Nat) (b : Byte) (rest : List Char) :
    readMoreBytes (fuel + 1) (',' :: ' ' :: (printByte b ++ rest)) =
      (readMoreBytes fuel rest).map (fun p => (b :: p.1, p.2)) := by
  have h : readByte (' ' :: (printByte b ++ rest)) = some (b, rest) := readByte_printByte b rest
  have hc : readComma (',' :: ' ' :: (printByte b ++ rest)) = some (' ' :: (printByte b ++ rest)) := rfl
  rw [readMoreBytes, hc]
  simp only [h]
  cases readMoreBytes fuel rest <;> rfl

theorem readMoreBytes_nil (fuel : Nat) : readMoreBytes fuel [] = some ([], []) := by cases fuel <;> rfl

/-- A list of bytes that starts with a printed byte. -/
theorem readBytes_printByte (b : Byte) (rest : List Char) :
    readBytes (printByte b ++ rest) = (readMoreBytes rest.length rest).map (fun p => (b :: p.1, p.2)) := by
  have he : atLineEnd (printByte b ++ rest) = false := rfl
  rw [readBytes, he]
  simp only [readByte_printByte]
  cases readMoreBytes rest.length rest <;> rfl

theorem readBracketEnd_bracket (rest : List Char) : readBracketEnd (']' :: rest) = some rest := rfl

/-- A printed byte does not close a bracket. -/
theorem readBracketEnd_printByte (b : Byte) (rest : List Char) : readBracketEnd (printByte b ++ rest) = none := rfl

/-- A list of printed bytes, up to something that is no comma. -/
theorem readMoreBytes_printBytes (bs : List Byte) (rest : List Char) (hc : readComma rest = none) (fuel : Nat)
    (hf : bs.length ≤ fuel) :
    readMoreBytes fuel (bs.flatMap (fun x => [',', ' '] ++ printByte x) ++ rest) = some (bs, rest) := by
  induction bs generalizing fuel with
  | nil => cases fuel <;> simp [readMoreBytes, hc]
  | cons b bs ih =>
    obtain ⟨n, rfl⟩ : ∃ n, fuel = n + 1 := ⟨fuel - 1, by simp at hf; omega⟩
    have h := readMoreBytes_printByte n b (bs.flatMap (fun x => [',', ' '] ++ printByte x) ++ rest)
    rw [ih n (by simp at hf; omega)] at h
    simpa using h

/-- The list may follow its first byte anywhere a list of bytes is read. -/
theorem readBytes_printBytes (b : Byte) (bs : List Byte) (rest : List Char) (hc : readComma rest = none) :
    readBytes (printByte b ++ (bs.flatMap (fun x => [',', ' '] ++ printByte x) ++ rest)) = some (b :: bs, rest) := by
  have hl : bs.length ≤ (bs.flatMap (fun x => [',', ' '] ++ printByte x) ++ rest).length := by
    rw [List.length_append, List.length_flatMap]
    have h : bs.length ≤ (bs.map (fun x => ([',', ' '] ++ printByte x).length)).sum := by simp [printByte, hexPair]; omega
    omega
  rw [readBytes_printByte, readMoreBytes_printBytes bs rest hc _ hl]
  rfl

theorem hexDigit_ascii : ∀ v : BitVec 4, (hexDigit v).toNat < 128 := by decide

theorem readTextRest_plain {c : Char} (h1 : c ≠ '"') (h2 : c ≠ '\\') (rest : List Char) :
    readTextRest (c :: rest) = (readTextRest rest).map (fun p => (charCode c :: p.1, p.2)) := by
  rw [readTextRest.eq_def]
  split <;> simp_all

theorem toNat_ofNat_of_lt {n : Nat} (h : n < 256) : (Char.ofNat n).toNat = n := by
  have hv : n.isValidChar := .inl (by omega)
  simp [Char.ofNat, hv, Char.toNat, Char.ofNatAux]

/-- The printed form of a plain character is neither a quote nor a backslash, and stands for the character. -/
theorem plain_char (c : Byte) (h1 : c ≠ 0x22#8) (h2 : c ≠ 0x5C#8) :
    Char.ofNat c.toNat ≠ '"' ∧ Char.ofNat c.toNat ≠ '\\' ∧ charCode (Char.ofNat c.toNat) = c := by
  have hn := toNat_ofNat_of_lt c.isLt
  refine ⟨fun h => h1 ?_, fun h => h2 ?_, ?_⟩
  · rw [h] at hn; exact BitVec.eq_of_toNat_eq hn.symm
  · rw [h] at hn; exact BitVec.eq_of_toNat_eq hn.symm
  · rw [charCode, hn, if_pos c.isLt]; simp

/-- Printed text is ASCII. -/
theorem printChar_ascii (c : Byte) : ∀ x ∈ printChar c, x.toNat < 128 := by
  intro x hx
  unfold printChar at hx
  split at hx
  · simp at hx; rcases hx with rfl | rfl <;> decide
  · split at hx
    · simp at hx; rcases hx with rfl | rfl <;> decide
    · split at hx
      · next h => rw [List.mem_singleton.1 hx, toNat_ofNat_of_lt c.isLt]; omega
      · simp only [hexPair, List.mem_cons, List.not_mem_nil, or_false] at hx
        rcases hx with rfl | rfl | rfl | rfl
        · decide
        · decide
        · exact hexDigit_ascii _
        · exact hexDigit_ascii _

theorem printText_ascii (text : List Byte) : ∀ x ∈ printText text, x.toNat < 128 := by
  intro x hx
  simp only [printText, List.mem_cons, List.mem_append, List.mem_flatMap, List.not_mem_nil, or_false,
    List.cons_append] at hx
  rcases hx with rfl | ⟨c, -, h⟩ | rfl
  · decide
  · exact printChar_ascii c x h
  · decide

theorem readTextRest_printChar (c : Byte) (rest : List Char) :
    readTextRest (printChar c ++ rest) = (readTextRest rest).map (fun p => (c :: p.1, p.2)) := by
  unfold printChar
  split
  · next h => subst h; rfl
  · split
    · next h => subst h; rfl
    · split
      · next h =>
        obtain ⟨h1, h2, h3⟩ := plain_char c h.2.2.1 h.2.2.2
        simp only [List.singleton_append, readTextRest_plain h1 h2, h3]
      · simp only [hexPair, List.cons_append, List.nil_append, readTextRest, hexByte_hexPair]

theorem readTextRest_printChars (text : List Byte) (rest : List Char) :
    readTextRest (text.flatMap printChar ++ '"' :: rest) = some (text, rest) := by
  induction text with
  | nil => rfl
  | cons c cs ih => simp only [List.flatMap_cons, List.append_assoc, readTextRest_printChar, ih, Option.map_some]

theorem readText_printText (text : List Byte) (rest : List Char) :
    readText (printText text ++ rest) = some (text, rest) := by
  simp only [readText, printText, List.cons_append, List.append_assoc, List.nil_append]
  exact readTextRest_printChars text rest

/-- Two digits of a word read as one byte of its value. -/
theorem readHexDigits_hexPair (n acc : Nat) (b : Byte) (rest : List Char) :
    readHexDigits (n + 2) acc (hexPair b ++ rest) = readHexDigits n (acc * 256 + b.toNat) rest := by
  have h : (acc * 16 + (b.extractLsb' 4 4).toNat) * 16 + (b.extractLsb' 0 4).toNat = acc * 256 + b.toNat := by
    simp only [BitVec.extractLsb'_toNat, Nat.shiftRight_eq_div_pow]
    omega
  simp only [hexPair, List.cons_append, List.nil_append, readHexDigits, hexValue_hexDigit, h]

theorem readWord_printWord (w : Word) (rest : List Char) : readWord (printWord w ++ rest) = some (w, rest) := by
  simp only [readWord, printWord, List.cons_append, List.append_assoc]
  change (readHexDigits 10 0 _).map _ = _
  rw [readHexDigits_hexPair 8, readHexDigits_hexPair 6, readHexDigits_hexPair 4, readHexDigits_hexPair 2,
    readHexDigits_hexPair 0]
  simp only [readHexDigits, Option.map_some, Option.some.injEq, Prod.mk.injEq, and_true]
  apply BitVec.eq_of_toNat_eq
  simp only [BitVec.toNat_ofNat, BitVec.extractLsb'_toNat, Nat.shiftRight_eq_div_pow]
  omega

end Sys2Proof.Machine
end

