-- ==== Sys2Proof/Laws/Rom.lean ====
section
/-! SUPPORT. The two tables against each other (20_memory.md R41 to R44). -/

namespace Sys2Proof.Machine

/-- INV finds the index FWD was read at. -/
@[simp] theorem inv_fwd : ∀ i : Index, inv (fwd i) = .idx i := by decide

/-- No alphabet character is the padding character (20_memory.md R42). -/
theorem fwd_ne_padChar : ∀ i : Index, fwd i ≠ padChar := by decide

/-- What an entry of INV says of its code. -/
theorem inv_spec (c : Byte) : match inv c with
    | .idx i => fwd i = c
    | .pad => c = padChar
    | .bad => c ≠ padChar := by
  have h : ∀ c : Byte, (match inv c with
      | .idx i => fwd i == c
      | .pad => c == padChar
      | .bad => c != padChar) = true := by decide
  have := h c
  split at this <;> simp_all

theorem fwd_of_inv {c : Byte} {i : Index} (h : inv c = .idx i) : fwd i = c := by
  have := inv_spec c
  simpa [h] using this

@[simp] theorem inv_padChar : inv padChar = .pad := by decide

theorem inv_eq_pad {c : Byte} : inv c = .pad ↔ c = padChar := by
  refine ⟨fun h => ?_, fun h => h ▸ inv_padChar⟩
  have := inv_spec c
  simpa [h] using this

theorem ne_padChar_of_idx {c : Byte} {i : Index} (h : inv c = .idx i) : c ≠ padChar :=
  fwd_of_inv h ▸ fwd_ne_padChar i

theorem ne_padChar_of_bad {c : Byte} (h : inv c = .bad) : c ≠ padChar := by
  intro hc
  rw [inv_eq_pad.2 hc] at h
  cases h

/-- A code that is neither `=` nor bad is an alphabet character. -/
theorem exists_idx {c : Byte} (hp : c ≠ padChar) (hb : inv c ≠ .bad) : ∃ i, inv c = .idx i := by
  cases h : inv c with
  | idx i => exact ⟨i, rfl⟩
  | pad => exact absurd (inv_eq_pad.1 h) hp
  | bad => exact absurd h hb

end Sys2Proof.Machine
end

