-- ==== Sys2Proof/Laws/Words.lean ====
section
/-! SUPPORT. Words as a control byte and four lanes, and the fields of such words. -/

namespace Sys2Proof

theorem controlByte_append (c : Byte) (d : BitVec 32) : controlByte (c ++ d) = c := by
  apply BitVec.eq_of_getLsbD_eq
  intro i hi
  simp only [controlByte, BitVec.getLsbD_extractLsb', hi]
  grind

theorem decoderChar_append (c c0 c1 c2 c3 : Byte) :
    decoderChar (c ++ (c0 ++ c1 ++ c2 ++ c3)) 0 = c0 ∧ decoderChar (c ++ (c0 ++ c1 ++ c2 ++ c3)) 1 = c1 ∧
    decoderChar (c ++ (c0 ++ c1 ++ c2 ++ c3)) 2 = c2 ∧ decoderChar (c ++ (c0 ++ c1 ++ c2 ++ c3)) 3 = c3 := by
  refine ⟨?_, ?_, ?_, ?_⟩ <;> apply BitVec.eq_of_getLsbD_eq <;> intro i hi <;>
    simp only [decoderChar, BitVec.getLsbD_extractLsb', hi] <;> grind

theorem encoderByte_append (c c0 c1 c2 c3 : Byte) :
    encoderByte (c ++ (c0 ++ c1 ++ c2 ++ c3)) 0 = c1 ∧ encoderByte (c ++ (c0 ++ c1 ++ c2 ++ c3)) 1 = c2 ∧
    encoderByte (c ++ (c0 ++ c1 ++ c2 ++ c3)) 2 = c3 := by
  refine ⟨?_, ?_, ?_⟩ <;> apply BitVec.eq_of_getLsbD_eq <;> intro i hi <;>
    simp only [encoderByte, BitVec.getLsbD_extractLsb', hi] <;> grind

/-- A word is its control byte and its four lanes. -/
theorem word_eq_append (w : Word) : w = controlByte w ++
    (decoderChar w 0 ++ decoderChar w 1 ++ decoderChar w 2 ++ decoderChar w 3) := by
  apply BitVec.eq_of_getLsbD_eq
  intro i hi
  simp only [controlByte, decoderChar, BitVec.getLsbD_append, BitVec.getLsbD_extractLsb']
  grind

theorem exists_lanes (w : Word) : ∃ c c0 c1 c2 c3 : Byte, w = c ++ (c0 ++ c1 ++ c2 ++ c3) :=
  ⟨_, _, _, _, _, word_eq_append w⟩

/-! ### The decoder's fields, from the control byte -/

theorem opField_eq (w : Word) : opField w = (controlByte w).extractLsb' 6 2 := by
  apply BitVec.eq_of_getLsbD_eq
  intro i hi
  simp [opField, controlByte, hi, ← Nat.add_assoc]
  omega

theorem encoderRsv_eq (w : Word) : encoderRsv w = (controlByte w).extractLsb' 2 4 := by
  apply BitVec.eq_of_getLsbD_eq
  intro i hi
  simp [encoderRsv, controlByte, hi, ← Nat.add_assoc]
  omega

theorem countField_eq (w : Word) : countField w = (controlByte w).extractLsb' 0 2 := by
  apply BitVec.eq_of_getLsbD_eq
  intro i hi
  simp [countField, controlByte, hi]
  omega

theorem decoderRsvZero_eq (w : Word) : decoderRsvZero w =
    ((controlByte w).extractLsb' 4 2 == 0#2 && (controlByte w).extractLsb' 2 1 == 0#1) := by
  unfold decoderRsvZero
  congr 2 <;> apply BitVec.eq_of_getLsbD_eq <;> intro i hi <;> simp [controlByte, hi, ← Nat.add_assoc] <;> omega

theorem finalFlag_eq (w : Word) : finalFlag w = (controlByte w).getLsbD 3 := by
  simp [finalFlag, controlByte]

/-! ### Decoding a word given as lanes -/

/-- A reserved control byte fails one of the decoder's checks. -/
theorem reserved_control : ∀ c : Byte, classifyControl c = .rsvd →
    (c.extractLsb' 6 2 = 0#2 → c.extractLsb' 2 4 ≠ 0#4 ∨ c.extractLsb' 0 2 = 0#2) ∧
    (c.extractLsb' 6 2 = 1#2 → (c.extractLsb' 4 2 == 0#2 && c.extractLsb' 2 1 == 0#1) = false) := by decide

/-- The control bytes of each class. -/
theorem classifyControl_cases : ∀ c : Byte,
    c = 0x01#8 ∨ c = 0x02#8 ∨ c = 0x03#8 ∨ c ∈ [0x40#8, 0x41#8, 0x42#8, 0x43#8] ∨
    c ∈ [0x48#8, 0x49#8, 0x4A#8, 0x4B#8] ∨ classifyControl c = .rsvd := by decide

theorem decode_enc1 (c0 c1 c2 c3 : Byte) : decode (0x01#8 ++ (c0 ++ c1 ++ c2 ++ c3)) = .ok (.enc1 c1) := by
  have h := encoderByte_append 0x01#8 c0 c1 c2 c3
  simp [decode, decodeEncoder, opField_eq, encoderRsv_eq, countField_eq, controlByte_append, h]

theorem decode_enc2 (c0 c1 c2 c3 : Byte) : decode (0x02#8 ++ (c0 ++ c1 ++ c2 ++ c3)) = .ok (.enc2 c1 c2) := by
  have h := encoderByte_append 0x02#8 c0 c1 c2 c3
  simp [decode, decodeEncoder, opField_eq, encoderRsv_eq, countField_eq, controlByte_append, h]

theorem decode_enc3 (c0 c1 c2 c3 : Byte) : decode (0x03#8 ++ (c0 ++ c1 ++ c2 ++ c3)) = .ok (.enc3 c1 c2 c3) := by
  have h := encoderByte_append 0x03#8 c0 c1 c2 c3
  simp [decode, decodeEncoder, opField_eq, encoderRsv_eq, countField_eq, controlByte_append, h]

theorem decode_dec {c : Byte} (hc : c ∈ [0x40#8, 0x41#8, 0x42#8, 0x43#8]) (c0 c1 c2 c3 : Byte) :
    decode (c ++ (c0 ++ c1 ++ c2 ++ c3)) = .ok (.dec ([c0, c1, c2, c3].take ((c.extractLsb' 0 2).toNat + 1))) := by
  have h := decoderChar_append c c0 c1 c2 c3
  simp only [List.mem_cons, List.not_mem_nil, or_false] at hc
  rcases hc with rfl | rfl | rfl | rfl <;>
    simp [decode, decodeDecoder, opField_eq, decoderRsvZero_eq, finalFlag_eq, suppliedText, suppliedCount,
      countField_eq, controlByte_append, h]

theorem decode_decl {c : Byte} (hc : c ∈ [0x48#8, 0x49#8, 0x4A#8, 0x4B#8]) (c0 c1 c2 c3 : Byte) :
    decode (c ++ (c0 ++ c1 ++ c2 ++ c3)) = .ok (.decl ([c0, c1, c2, c3].take ((c.extractLsb' 0 2).toNat + 1))) := by
  have h := decoderChar_append c c0 c1 c2 c3
  simp only [List.mem_cons, List.not_mem_nil, or_false] at hc
  rcases hc with rfl | rfl | rfl | rfl <;>
    simp [decode, decodeDecoder, opField_eq, decoderRsvZero_eq, finalFlag_eq, suppliedText, suppliedCount,
      countField_eq, controlByte_append, h]

/-- A word whose control byte is reserved is rejected. -/
theorem decode_rsvd {w : Word} (h : classify w = .rsvd) : ∃ e, decode w = .error e := by
  obtain ⟨h0, h1⟩ := reserved_control _ h
  rw [← opField_eq] at h0 h1
  rw [← encoderRsv_eq, ← countField_eq] at h0
  rw [← decoderRsvZero_eq] at h1
  unfold decode
  split
  · next ho =>
    unfold decodeEncoder
    split
    · exact ⟨_, rfl⟩
    · next hr =>
      have hcount := (h0 ho).resolve_left hr
      simp [hcount]
  · split
    · next ho =>
      unfold decodeDecoder
      simp [h1 ho]
    · exact ⟨_, rfl⟩

/-- Every word is one of the five commands, or reserved and rejected (30_encoding.md R67). -/
theorem decode_cases (c c0 c1 c2 c3 : Byte) :
    (c = 0x01#8 ∧ decode (c ++ (c0 ++ c1 ++ c2 ++ c3)) = .ok (.enc1 c1)) ∨
    (c = 0x02#8 ∧ decode (c ++ (c0 ++ c1 ++ c2 ++ c3)) = .ok (.enc2 c1 c2)) ∨
    (c = 0x03#8 ∧ decode (c ++ (c0 ++ c1 ++ c2 ++ c3)) = .ok (.enc3 c1 c2 c3)) ∨
    (c ∈ [0x40#8, 0x41#8, 0x42#8, 0x43#8] ∧ decode (c ++ (c0 ++ c1 ++ c2 ++ c3)) =
      .ok (.dec ([c0, c1, c2, c3].take ((c.extractLsb' 0 2).toNat + 1)))) ∨
    (c ∈ [0x48#8, 0x49#8, 0x4A#8, 0x4B#8] ∧ decode (c ++ (c0 ++ c1 ++ c2 ++ c3)) =
      .ok (.decl ([c0, c1, c2, c3].take ((c.extractLsb' 0 2).toNat + 1)))) ∨
    (classifyControl c = .rsvd ∧ ∃ e, decode (c ++ (c0 ++ c1 ++ c2 ++ c3)) = .error e) := by
  obtain rfl | rfl | rfl | h | h | h := classifyControl_cases c
  · exact .inl ⟨rfl, decode_enc1 _ _ _ _⟩
  · exact .inr (.inl ⟨rfl, decode_enc2 _ _ _ _⟩)
  · exact .inr (.inr (.inl ⟨rfl, decode_enc3 _ _ _ _⟩))
  · exact .inr (.inr (.inr (.inl ⟨h, decode_dec h _ _ _ _⟩)))
  · exact .inr (.inr (.inr (.inr (.inl ⟨h, decode_decl h _ _ _ _⟩))))
  · exact .inr (.inr (.inr (.inr (.inr ⟨h, decode_rsvd (by rwa [classify, controlByte_append])⟩))))

/-- The control byte of a decoder command of m characters is a decoder control byte that says m. -/
theorem decoder_control : ∀ n, n < 4 →
    (0x40#8 ||| BitVec.ofNat 8 n) ∈ [0x40#8, 0x41#8, 0x42#8, 0x43#8] ∧
    ((0x40#8 ||| BitVec.ofNat 8 n).extractLsb' 0 2).toNat = n ∧
    (0x48#8 ||| BitVec.ofNat 8 n) ∈ [0x48#8, 0x49#8, 0x4A#8, 0x4B#8] ∧
    ((0x48#8 ||| BitVec.ofNat 8 n).extractLsb' 0 2).toNat = n := by decide

/-- The first m lanes of a text of m characters are the text. -/
theorem take_textLanes (text : List Byte) (h1 : 1 ≤ text.length) (h4 : text.length ≤ 4) :
    [text.getD 0 0#8, text.getD 1 0#8, text.getD 2 0#8, text.getD 3 0#8].take (text.length - 1 + 1) = text := by
  match text with
  | [_] => rfl
  | [_, _] => rfl
  | [_, _, _] => rfl
  | [_, _, _, _] => rfl
  | _ :: _ :: _ :: _ :: _ :: _ => simp at h4; omega

theorem and_ff : ∀ x : Byte, x &&& 0xFF#8 = x := by decide

theorem and_zero : ∀ x : Byte, x &&& 0#8 = 0#8 := by decide

theorem controlByte_and (w m : Word) : controlByte (w &&& m) = controlByte w &&& controlByte m := by
  apply BitVec.eq_of_getLsbD_eq
  intro i hi
  simp [controlByte, hi]

/-- Matching a row of the opcode table is matching its control byte. -/
theorem controlByte_of_match {w mask pattern : Word} (h : w &&& mask = pattern) :
    controlByte w &&& controlByte mask = controlByte pattern := by
  rw [← h, controlByte_and]

/-- A mask of whole bytes acts lane by lane. -/
theorem lanes_and (c m c0 c1 c2 c3 m0 m1 m2 m3 : Byte) :
    ((c ++ (c0 ++ c1 ++ c2 ++ c3) : Word) &&& (m ++ (m0 ++ m1 ++ m2 ++ m3))) =
      ((c &&& m) ++ ((c0 &&& m0) ++ (c1 &&& m1) ++ (c2 &&& m2) ++ (c3 &&& m3))) := by
  apply BitVec.eq_of_getLsbD_eq
  intro i hi
  simp only [BitVec.getLsbD_and, BitVec.getLsbD_append]
  grind

end Sys2Proof

namespace Sys2Proof.Machine

theorem rspLane_append (c c0 c1 c2 c3 : Byte) :
    rspLane (c ++ (c0 ++ c1 ++ c2 ++ c3)) 0 = c0 ∧ rspLane (c ++ (c0 ++ c1 ++ c2 ++ c3)) 1 = c1 ∧
    rspLane (c ++ (c0 ++ c1 ++ c2 ++ c3)) 2 = c2 ∧ rspLane (c ++ (c0 ++ c1 ++ c2 ++ c3)) 3 = c3 := by
  refine ⟨?_, ?_, ?_, ?_⟩ <;> apply BitVec.eq_of_getLsbD_eq <;> intro i hi <;>
    simp only [rspLane, BitVec.getLsbD_extractLsb', hi] <;> grind

/-! ### The fields of a response word -/

theorem rspErr_responseWord (e : BitVec 1) (c : BitVec 3) (n : BitVec 2) (d : BitVec 32) :
    rspErr (responseWord e c n d) = e.getLsbD 0 := by
  simp only [rspErr, responseWord, BitVec.getLsbD_append]
  grind

theorem rspCause_responseWord (e : BitVec 1) (c : BitVec 3) (n : BitVec 2) (d : BitVec 32) :
    rspCause (responseWord e c n d) = c := by
  apply BitVec.eq_of_getLsbD_eq
  intro i hi
  simp only [rspCause, responseWord, BitVec.getLsbD_append, BitVec.getLsbD_extractLsb', hi]
  grind

theorem rspZero_responseWord (e : BitVec 1) (c : BitVec 3) (n : BitVec 2) (d : BitVec 32) :
    rspZero (responseWord e c n d) = 0#2 := by
  apply BitVec.eq_of_getLsbD_eq
  intro i hi
  simp only [rspZero, responseWord, BitVec.getLsbD_append, BitVec.getLsbD_extractLsb', hi]
  grind

theorem rspCount_responseWord (e : BitVec 1) (c : BitVec 3) (n : BitVec 2) (d : BitVec 32) :
    rspCount (responseWord e c n d) = n := by
  apply BitVec.eq_of_getLsbD_eq
  intro i hi
  simp only [rspCount, responseWord, BitVec.getLsbD_append, BitVec.getLsbD_extractLsb', hi]
  grind

theorem rspDout_responseWord (e : BitVec 1) (c : BitVec 3) (n : BitVec 2) (d : BitVec 32) :
    (responseWord e c n d).extractLsb' 0 32 = d := by
  apply BitVec.eq_of_getLsbD_eq
  intro i hi
  simp only [responseWord, BitVec.getLsbD_append, BitVec.getLsbD_extractLsb', hi]
  grind

/-- A success response is one byte that holds the count, and its data. -/
theorem successWord_eq (n : BitVec 2) (d : BitVec 32) : successWord n d = (0#6 ++ n : Byte) ++ d := by
  apply BitVec.eq_of_getLsbD_eq
  intro i hi
  simp only [successWord, responseWord, Cause.code, BitVec.getLsbD_append]
  grind

theorem rspErr_successWord (n : BitVec 2) (d : BitVec 32) : rspErr (successWord n d) = false :=
  rspErr_responseWord _ _ _ _

theorem rspErr_failWord (c : Cause) : rspErr (failWord c) = true := rspErr_responseWord _ _ _ _

theorem rspCount_successWord (n : BitVec 2) (d : BitVec 32) : rspCount (successWord n d) = n :=
  rspCount_responseWord _ _ _ _

theorem rspCause_failWord (c : Cause) : rspCause (failWord c) = c.code := rspCause_responseWord _ _ _ _

theorem rspLane_successWord (n : BitVec 2) (c0 c1 c2 c3 : Byte) :
    rspLane (successWord n (c0 ++ c1 ++ c2 ++ c3)) 0 = c0 ∧ rspLane (successWord n (c0 ++ c1 ++ c2 ++ c3)) 1 = c1 ∧
    rspLane (successWord n (c0 ++ c1 ++ c2 ++ c3)) 2 = c2 ∧ rspLane (successWord n (c0 ++ c1 ++ c2 ++ c3)) 3 = c3 := by
  rw [successWord_eq]
  exact rspLane_append _ _ _ _ _

/-- A success response written out byte by byte. -/
theorem successWord_lanes (n : BitVec 2) (c0 c1 c2 c3 : Byte) :
    successWord n (c0 ++ c1 ++ c2 ++ c3) = (0#6 ++ n : Byte) ++ c0 ++ c1 ++ c2 ++ c3 := by
  rw [successWord_eq]
  apply BitVec.eq_of_getLsbD_eq
  intro i hi
  simp only [BitVec.getLsbD_append]
  grind

/-! ### Slices and bytes of an accumulator -/

theorem slice_packSlices (v0 v1 v2 v3 : Index) :
    slice (packSlices v0 v1 v2 v3) 0 = v0 ∧ slice (packSlices v0 v1 v2 v3) 1 = v1 ∧
    slice (packSlices v0 v1 v2 v3) 2 = v2 ∧ slice (packSlices v0 v1 v2 v3) 3 = v3 := by
  refine ⟨?_, ?_, ?_, ?_⟩ <;> apply BitVec.eq_of_getLsbD_eq <;> intro i hi <;>
    simp only [slice, packSlices, BitVec.getLsbD_append, BitVec.getLsbD_extractLsb', hi] <;> grind

/-- The slices of an accumulator are the whole of it. -/
theorem packSlices_slice (acc : Acc) : packSlices (slice acc 0) (slice acc 1) (slice acc 2) (slice acc 3) = acc := by
  apply BitVec.eq_of_getLsbD_eq
  intro i hi
  simp only [slice, packSlices, BitVec.getLsbD_append, BitVec.getLsbD_extractLsb']
  grind

/-- The bytes of an accumulator are the whole of it. -/
theorem accByte_append (acc : Acc) : (accByte acc 0 ++ accByte acc 1 ++ accByte acc 2 : Acc) = acc := by
  apply BitVec.eq_of_getLsbD_eq
  intro i hi
  simp only [accByte, BitVec.getLsbD_append, BitVec.getLsbD_extractLsb']
  grind

theorem accByte_of_append (b0 b1 b2 : Byte) :
    accByte (b0 ++ b1 ++ b2) 0 = b0 ∧ accByte (b0 ++ b1 ++ b2) 1 = b1 ∧ accByte (b0 ++ b1 ++ b2) 2 = b2 := by
  refine ⟨?_, ?_, ?_⟩ <;> apply BitVec.eq_of_getLsbD_eq <;> intro i hi <;>
    simp only [accByte, BitVec.getLsbD_append, BitVec.getLsbD_extractLsb', hi] <;> grind

end Sys2Proof.Machine
end

