-- ==== Sys2Proof/Laws/Codec.lean ====
section
/-! SUPPORT. What the encoder and the decoder answer, one lemma for each shape of a group. -/

namespace Sys2Proof.Machine

/-! ### Encoder -/

theorem encoderResponse_one (b0 : Byte) : encoderResponse 1 b0 0#8 0#8 =
    successWord 1#2 (fwd (slice (packBytes 1 b0 0#8 0#8) 0) ++ fwd (slice (packBytes 1 b0 0#8 0#8) 1) ++
      padChar ++ padChar) := rfl

theorem encoderResponse_two (b0 b1 : Byte) : encoderResponse 2 b0 b1 0#8 =
    successWord 2#2 (fwd (slice (packBytes 2 b0 b1 0#8) 0) ++ fwd (slice (packBytes 2 b0 b1 0#8) 1) ++
      fwd (slice (packBytes 2 b0 b1 0#8) 2) ++ padChar) := rfl

theorem encoderResponse_three (b0 b1 b2 : Byte) : encoderResponse 3 b0 b1 b2 =
    successWord 3#2 (fwd (slice (packBytes 3 b0 b1 b2) 0) ++ fwd (slice (packBytes 3 b0 b1 b2) 1) ++
      fwd (slice (packBytes 3 b0 b1 b2) 2) ++ fwd (slice (packBytes 3 b0 b1 b2) 3)) := rfl

theorem packBytes_one (b0 b1 b2 : Byte) : packBytes 1 b0 b1 b2 = b0 ++ 0x0000#16 := by
  apply BitVec.eq_of_getLsbD_eq
  intro i hi
  simp only [packBytes, BitVec.getLsbD_append]
  grind

theorem packBytes_two (b0 b1 b2 : Byte) : packBytes 2 b0 b1 b2 = b0 ++ b1 ++ 0x00#8 := rfl

theorem packBytes_three (b0 b1 b2 : Byte) : packBytes 3 b0 b1 b2 = b0 ++ b1 ++ b2 := rfl

/-- With one byte the low four bits of the second slice are 0 (40_encoder.md R87). -/
theorem slice_one_low (b0 : Byte) : (slice (packBytes 1 b0 0#8 0#8) 1).extractLsb' 0 4 = 0#4 := by
  apply BitVec.eq_of_getLsbD_eq
  intro i hi
  simp only [slice, packBytes, BitVec.getLsbD_append, BitVec.getLsbD_extractLsb', hi]
  grind

/-- With two bytes the low two bits of the third slice are 0 (40_encoder.md R86). -/
theorem slice_two_low (b0 b1 : Byte) : (slice (packBytes 2 b0 b1 0#8) 2).extractLsb' 0 2 = 0#2 := by
  apply BitVec.eq_of_getLsbD_eq
  intro i hi
  simp only [slice, packBytes, BitVec.getLsbD_append, BitVec.getLsbD_extractLsb', hi]
  grind

/-- The first two slices of a one-byte group are all of its data. -/
theorem packSlices_one (b0 : Byte) :
    packSlices (slice (packBytes 1 b0 0#8 0#8) 0) (slice (packBytes 1 b0 0#8 0#8) 1) 0#6 0#6 = b0 ++ 0#8 ++ 0#8 := by
  apply BitVec.eq_of_getLsbD_eq
  intro i hi
  simp only [slice, packSlices, packBytes, BitVec.getLsbD_append, BitVec.getLsbD_extractLsb']
  grind

/-- The first three slices of a two-byte group are all of its data. -/
theorem packSlices_two (b0 b1 : Byte) :
    packSlices (slice (packBytes 2 b0 b1 0#8) 0) (slice (packBytes 2 b0 b1 0#8) 1)
      (slice (packBytes 2 b0 b1 0#8) 2) 0#6 = b0 ++ b1 ++ 0#8 := by
  apply BitVec.eq_of_getLsbD_eq
  intro i hi
  simp only [slice, packSlices, packBytes, BitVec.getLsbD_append, BitVec.getLsbD_extractLsb']
  grind

theorem packSlices_three (b0 b1 b2 : Byte) :
    packSlices (slice (packBytes 3 b0 b1 b2) 0) (slice (packBytes 3 b0 b1 b2) 1)
      (slice (packBytes 3 b0 b1 b2) 2) (slice (packBytes 3 b0 b1 b2) 3) = b0 ++ b1 ++ b2 := packSlices_slice _

/-- The response of a word that a command encodes to is the command's. -/
theorem respond_encode {i : Instr} (h : decode (encode i) = .ok i) : respond (encode i) = instrResponse i := by
  unfold respond
  rw [h]

theorem respond_enc1 (b0 : Byte) : respond (encode (.enc1 b0)) = encoderResponse 1 b0 0#8 0#8 :=
  respond_encode (i := .enc1 b0) (decode_enc1 0#8 b0 0#8 0#8)

theorem respond_enc2 (b0 b1 : Byte) : respond (encode (.enc2 b0 b1)) = encoderResponse 2 b0 b1 0#8 :=
  respond_encode (i := .enc2 b0 b1) (decode_enc2 0#8 b0 b1 0#8)

theorem respond_enc3 (b0 b1 b2 : Byte) : respond (encode (.enc3 b0 b1 b2)) = encoderResponse 3 b0 b1 b2 :=
  respond_encode (i := .enc3 b0 b1 b2) (decode_enc3 0#8 b0 b1 b2)

theorem encode_dec4 (c0 c1 c2 c3 : Byte) : encode (.dec [c0, c1, c2, c3]) = 0x43#8 ++ (c0 ++ c1 ++ c2 ++ c3) := by
  simp [encode, Instr.control, Instr.din, textLanes]

theorem encode_decl4 (c0 c1 c2 c3 : Byte) : encode (.decl [c0, c1, c2, c3]) = 0x4B#8 ++ (c0 ++ c1 ++ c2 ++ c3) := by
  simp [encode, Instr.control, Instr.din, textLanes]

theorem respond_dec4 (c0 c1 c2 c3 : Byte) :
    respond (encode (.dec [c0, c1, c2, c3])) = decoderResponse false [c0, c1, c2, c3] := by
  refine respond_encode (i := .dec [c0, c1, c2, c3]) ?_
  rw [encode_dec4]
  exact decode_dec (by decide) c0 c1 c2 c3

theorem respond_decl4 (c0 c1 c2 c3 : Byte) :
    respond (encode (.decl [c0, c1, c2, c3])) = decoderResponse true [c0, c1, c2, c3] := by
  refine respond_encode (i := .decl [c0, c1, c2, c3]) ?_
  rw [encode_decl4]
  exact decode_decl (by decide) c0 c1 c2 c3

/-! ### Decoder -/

/-- The data field of a decoder success: a zero byte and the accumulator (41_decoder.md R108). -/
def bytesOut (acc : Acc) : BitVec 32 := 0x00#8 ++ accByte acc 0 ++ accByte acc 1 ++ accByte acc 2

theorem bytesOut_append (b0 b1 b2 : Byte) : bytesOut (b0 ++ b1 ++ b2) = 0x00#8 ++ b0 ++ b1 ++ b2 := by
  have h := accByte_of_append b0 b1 b2
  simp [bytesOut, h]

theorem bytesOut_eq (acc : Acc) : bytesOut acc = 0x00#8 ++ acc := by
  apply BitVec.eq_of_getLsbD_eq
  intro i hi
  simp only [bytesOut, accByte, BitVec.getLsbD_append, BitVec.getLsbD_extractLsb']
  grind

/-- A group of any other length than 4 is a length error, whatever it holds (41_decoder.md R101). -/
theorem decoderResponse_of_length (final : Bool) {text : List Byte} (h : text.length ≠ 4) :
    decoderResponse final text = failWord .len := by
  simp [decoderResponse, decoderCause, eLen, h]

/-- Padding outside the two legal patterns is a padding error (41_decoder.md R102). -/
theorem decoderResponse_of_placement (final : Bool) {c0 c1 c2 c3 : Byte}
    (h : padCount [c0, c1, c2, c3] = none) : decoderResponse final [c0, c1, c2, c3] = failWord .pad := by
  simp [decoderResponse, decoderCause, eLen, ePadPos, h]

/-- Padding in a group that is not final is a padding error (41_decoder.md R103). -/
theorem decoderResponse_of_not_final {c0 c1 c2 c3 : Byte} (h : padCount [c0, c1, c2, c3] ≠ some 0) :
    decoderResponse false [c0, c1, c2, c3] = failWord .pad := by
  cases hp : padCount [c0, c1, c2, c3] with
  | none => exact decoderResponse_of_placement false hp
  | some p =>
    have : 0 < p := by
      rcases Nat.eq_zero_or_pos p with rfl | h'
      · exact absurd hp h
      · exact h'
    simp [decoderResponse, decoderCause, eLen, ePadPos, hp, this]

theorem padCount_zero {c0 c1 c2 c3 : Byte} (h0 : c0 ≠ padChar) (h1 : c1 ≠ padChar) (h2 : c2 ≠ padChar)
    (h3 : c3 ≠ padChar) : padCount [c0, c1, c2, c3] = some 0 := by
  simp [padCount, padFlag, lane, beq_false_of_ne h0, beq_false_of_ne h1, beq_false_of_ne h2, beq_false_of_ne h3]

theorem padCount_one {c0 c1 c2 : Byte} (h0 : c0 ≠ padChar) (h1 : c1 ≠ padChar) (h2 : c2 ≠ padChar) :
    padCount [c0, c1, c2, padChar] = some 1 := by
  simp [padCount, padFlag, lane, beq_false_of_ne h0, beq_false_of_ne h1, beq_false_of_ne h2]

theorem padCount_two {c0 c1 : Byte} (h0 : c0 ≠ padChar) (h1 : c1 ≠ padChar) :
    padCount [c0, c1, padChar, padChar] = some 2 := by
  simp [padCount, padFlag, lane, beq_false_of_ne h0, beq_false_of_ne h1]

/-- What a legal padding pattern says of the four characters (41_decoder.md R102). -/
theorem padCount_cases (c0 c1 c2 c3 : Byte) :
    (padCount [c0, c1, c2, c3] = some 0 ∧ c0 ≠ padChar ∧ c1 ≠ padChar ∧ c2 ≠ padChar ∧ c3 ≠ padChar) ∨
    (padCount [c0, c1, c2, c3] = some 1 ∧ c0 ≠ padChar ∧ c1 ≠ padChar ∧ c2 ≠ padChar ∧ c3 = padChar) ∨
    (padCount [c0, c1, c2, c3] = some 2 ∧ c0 ≠ padChar ∧ c1 ≠ padChar ∧ c2 = padChar ∧ c3 = padChar) ∨
    padCount [c0, c1, c2, c3] = none := by
  simp only [padCount, padFlag, lane, List.getD_cons_zero, List.getD_cons_succ]
  by_cases h0 : c0 = padChar <;> by_cases h1 : c1 = padChar <;> by_cases h2 : c2 = padChar <;>
    by_cases h3 : c3 = padChar <;> simp_all [beq_false_of_ne]

/-- A character outside the alphabet in a group without padding (41_decoder.md R104). -/
theorem decoderResponse_bad_zero (final : Bool) {c0 c1 c2 c3 : Byte} (h0 : c0 ≠ padChar) (h1 : c1 ≠ padChar)
    (h2 : c2 ≠ padChar) (h3 : c3 ≠ padChar)
    (hb : inv c0 = .bad ∨ inv c1 = .bad ∨ inv c2 = .bad ∨ inv c3 = .bad) :
    decoderResponse final [c0, c1, c2, c3] = failWord .char := by
  have hp := padCount_zero h0 h1 h2 h3
  have hc : eChar [c0, c1, c2, c3] = true := by simp [eChar, hp, lane, List.range_succ, hb]
  simp [decoderResponse, decoderCause, eLen, ePadPos, hp, hc]

/-- A character outside the alphabet in a final group with one `=` (41_decoder.md R104). -/
theorem decoderResponse_bad_one {c0 c1 c2 : Byte} (h0 : c0 ≠ padChar) (h1 : c1 ≠ padChar) (h2 : c2 ≠ padChar)
    (hb : inv c0 = .bad ∨ inv c1 = .bad ∨ inv c2 = .bad) :
    decoderResponse true [c0, c1, c2, padChar] = failWord .char := by
  have hp := padCount_one h0 h1 h2
  have hc : eChar [c0, c1, c2, padChar] = true := by simp [eChar, hp, lane, List.range_succ, hb]
  simp [decoderResponse, decoderCause, eLen, ePadPos, hp, hc]

/-- A character outside the alphabet in a final group with two `=` (41_decoder.md R104). -/
theorem decoderResponse_bad_two {c0 c1 : Byte} (h0 : c0 ≠ padChar) (h1 : c1 ≠ padChar)
    (hb : inv c0 = .bad ∨ inv c1 = .bad) :
    decoderResponse true [c0, c1, padChar, padChar] = failWord .char := by
  have hp := padCount_two h0 h1
  have hc : eChar [c0, c1, padChar, padChar] = true := by simp [eChar, hp, lane, List.range_succ, hb]
  simp [decoderResponse, decoderCause, eLen, ePadPos, hp, hc]

/-- Four alphabet characters give three bytes (41_decoder.md R107, R108). -/
theorem decoderResponse_data (final : Bool) {c0 c1 c2 c3 : Byte} {v0 v1 v2 v3 : Index} (h0 : inv c0 = .idx v0)
    (h1 : inv c1 = .idx v1) (h2 : inv c2 = .idx v2) (h3 : inv c3 = .idx v3) :
    decoderResponse final [c0, c1, c2, c3] = successWord 3#2 (bytesOut (packSlices v0 v1 v2 v3)) := by
  have hp := padCount_zero (ne_padChar_of_idx h0) (ne_padChar_of_idx h1) (ne_padChar_of_idx h2) (ne_padChar_of_idx h3)
  have hc : eChar [c0, c1, c2, c3] = false := by simp [eChar, hp, lane, List.range_succ, h0, h1, h2, h3]
  have hb : ePadBits [c0, c1, c2, c3] = false := by simp [ePadBits, hp]
  have hn : decoderCause final [c0, c1, c2, c3] = .none := by simp [decoderCause, eLen, ePadPos, hp, hc, hb]
  simp only [decoderResponse, hn, hp, Option.getD_some, decoderSuccess, unpackAcc, bytesOut, laneIndex, lane]
  simp [h0, h1, h2, h3, InvEntry.index]

/-- Three alphabet characters and one `=` in a final group (41_decoder.md R105, R107). -/
theorem decoderResponse_one {c0 c1 c2 : Byte} {v0 v1 v2 : Index} (h0 : inv c0 = .idx v0) (h1 : inv c1 = .idx v1)
    (h2 : inv c2 = .idx v2) :
    decoderResponse true [c0, c1, c2, padChar] =
      if v2.extractLsb' 0 2 ≠ 0#2 then failWord .pad else successWord 2#2 (bytesOut (packSlices v0 v1 v2 0#6)) := by
  have hp := padCount_one (ne_padChar_of_idx h0) (ne_padChar_of_idx h1) (ne_padChar_of_idx h2)
  have hc : eChar [c0, c1, c2, padChar] = false := by simp [eChar, hp, lane, List.range_succ, h0, h1, h2]
  have hb : ePadBits [c0, c1, c2, padChar] = (v2.extractLsb' 0 2 != 0#2) := by
    simp [ePadBits, hp, hc, laneIndex, lane, h2, InvEntry.index]
  have hn : decoderCause true [c0, c1, c2, padChar] = if v2.extractLsb' 0 2 ≠ 0#2 then .pad else .none := by
    simp [decoderCause, eLen, ePadPos, hp, hc, hb]
  unfold decoderResponse
  rw [hn]
  by_cases hv : v2.extractLsb' 0 2 = 0#2
  · simp only [hv, hp, Option.getD_some, decoderSuccess, unpackAcc, bytesOut, laneIndex, lane]
    simp [h0, h1, h2, InvEntry.index]
  · simp [hv]

/-- Two alphabet characters and two `=` in a final group (41_decoder.md R105, R107). -/
theorem decoderResponse_two {c0 c1 : Byte} {v0 v1 : Index} (h0 : inv c0 = .idx v0) (h1 : inv c1 = .idx v1) :
    decoderResponse true [c0, c1, padChar, padChar] =
      if v1.extractLsb' 0 4 ≠ 0#4 then failWord .pad else successWord 1#2 (bytesOut (packSlices v0 v1 0#6 0#6)) := by
  have hp := padCount_two (ne_padChar_of_idx h0) (ne_padChar_of_idx h1)
  have hc : eChar [c0, c1, padChar, padChar] = false := by simp [eChar, hp, lane, List.range_succ, h0, h1]
  have hb : ePadBits [c0, c1, padChar, padChar] = (v1.extractLsb' 0 4 != 0#4) := by
    simp [ePadBits, hp, hc, laneIndex, lane, h1, InvEntry.index]
  have hn : decoderCause true [c0, c1, padChar, padChar] = if v1.extractLsb' 0 4 ≠ 0#4 then .pad else .none := by
    simp [decoderCause, eLen, ePadPos, hp, hc, hb]
  unfold decoderResponse
  rw [hn]
  by_cases hv : v1.extractLsb' 0 4 = 0#4
  · simp only [hv, hp, Option.getD_some, decoderSuccess, unpackAcc, bytesOut, laneIndex, lane]
    simp [h0, h1, InvEntry.index]
  · simp [hv]

/-- Every group is a failure or one of the three shapes of data (41_decoder.md R106 to R109). -/
theorem decoderResponse_cases (final : Bool) (text : List Byte) :
    (∃ c, decoderResponse final text = failWord c ∧ (c = .len ∨ c = .pad ∨ c = .char)) ∨
    (∃ c0 c1 c2 c3 v0 v1 v2 v3, text = [c0, c1, c2, c3] ∧ inv c0 = .idx v0 ∧ inv c1 = .idx v1 ∧ inv c2 = .idx v2 ∧
      inv c3 = .idx v3 ∧ decoderResponse final text = successWord 3#2 (bytesOut (packSlices v0 v1 v2 v3))) ∨
    (final = true ∧ ∃ c0 c1 c2 v0 v1 v2, text = [c0, c1, c2, padChar] ∧ inv c0 = .idx v0 ∧ inv c1 = .idx v1 ∧
      inv c2 = .idx v2 ∧ v2.extractLsb' 0 2 = 0#2 ∧
      decoderResponse final text = successWord 2#2 (bytesOut (packSlices v0 v1 v2 0#6))) ∨
    (final = true ∧ ∃ c0 c1 v0 v1, text = [c0, c1, padChar, padChar] ∧ inv c0 = .idx v0 ∧ inv c1 = .idx v1 ∧
      v1.extractLsb' 0 4 = 0#4 ∧
      decoderResponse final text = successWord 1#2 (bytesOut (packSlices v0 v1 0#6 0#6))) := by
  by_cases hl : text.length = 4
  · match text, hl with
    | [c0, c1, c2, c3], _ =>
      obtain ⟨hp, n0, n1, n2, n3⟩ | ⟨hp, n0, n1, n2, rfl⟩ | ⟨hp, n0, n1, rfl, rfl⟩ | hp := padCount_cases c0 c1 c2 c3
      · by_cases hb : inv c0 = .bad ∨ inv c1 = .bad ∨ inv c2 = .bad ∨ inv c3 = .bad
        · exact .inl ⟨.char, decoderResponse_bad_zero final n0 n1 n2 n3 hb, by simp⟩
        · simp only [not_or] at hb
          obtain ⟨v0, h0⟩ := exists_idx n0 hb.1
          obtain ⟨v1, h1⟩ := exists_idx n1 hb.2.1
          obtain ⟨v2, h2⟩ := exists_idx n2 hb.2.2.1
          obtain ⟨v3, h3⟩ := exists_idx n3 hb.2.2.2
          exact .inr (.inl ⟨_, _, _, _, _, _, _, _, rfl, h0, h1, h2, h3, decoderResponse_data final h0 h1 h2 h3⟩)
      · cases final with
        | false => exact .inl ⟨.pad, decoderResponse_of_not_final (by simp [hp]), by simp⟩
        | true =>
          by_cases hb : inv c0 = .bad ∨ inv c1 = .bad ∨ inv c2 = .bad
          · exact .inl ⟨.char, decoderResponse_bad_one n0 n1 n2 hb, by simp⟩
          · simp only [not_or] at hb
            obtain ⟨v0, h0⟩ := exists_idx n0 hb.1
            obtain ⟨v1, h1⟩ := exists_idx n1 hb.2.1
            obtain ⟨v2, h2⟩ := exists_idx n2 hb.2.2
            have hr := decoderResponse_one h0 h1 h2
            by_cases hv : v2.extractLsb' 0 2 = 0#2
            · exact .inr (.inr (.inl ⟨rfl, _, _, _, _, _, _, rfl, h0, h1, h2, hv, by simpa [hv] using hr⟩))
            · exact .inl ⟨.pad, by simpa [hv] using hr, by simp⟩
      · cases final with
        | false => exact .inl ⟨.pad, decoderResponse_of_not_final (by simp [hp]), by simp⟩
        | true =>
          by_cases hb : inv c0 = .bad ∨ inv c1 = .bad
          · exact .inl ⟨.char, decoderResponse_bad_two n0 n1 hb, by simp⟩
          · simp only [not_or] at hb
            obtain ⟨v0, h0⟩ := exists_idx n0 hb.1
            obtain ⟨v1, h1⟩ := exists_idx n1 hb.2
            have hr := decoderResponse_two h0 h1
            by_cases hv : v1.extractLsb' 0 4 = 0#4
            · exact .inr (.inr (.inr ⟨rfl, _, _, _, _, rfl, h0, h1, hv, by simpa [hv] using hr⟩))
            · exact .inl ⟨.pad, by simpa [hv] using hr, by simp⟩
      · exact .inl ⟨.pad, decoderResponse_of_placement final hp, by simp⟩
  · exact .inl ⟨.len, decoderResponse_of_length final hl, by simp⟩

end Sys2Proof.Machine
end

