-- ==== Sys2Proof/Laws/PerInstr.lean ====
section
/-! SUPPORT. Facts about each command as syntax, one lemma for each constructor. -/

namespace Sys2Proof.Laws.EncodedClass

/-- The word of a well-formed command matches the opcode-table row of its own class (30_encoding.md R67, R70). -/
def Statement (i : Instr) : Prop := i.wellFormed = true → classify (encode i) = i.cls

/-- The class of a word written as a control byte and data. -/
theorem classify_append (c : Byte) (d : BitVec 32) : classify (c ++ d) = classifyControl c := by
  rw [classify, controlByte_append]

theorem classify_dec_control : ∀ n, n < 4 → classifyControl (0x40#8 ||| BitVec.ofNat 8 n) = .dec := by decide

theorem classify_decl_control : ∀ n, n < 4 → classifyControl (0x48#8 ||| BitVec.ofNat 8 n) = .decl := by decide

theorem enc1 (b0 : Byte) : Statement (.enc1 b0) := fun _ => (classify_append 0x01#8 _).trans rfl

theorem enc2 (b0 b1 : Byte) : Statement (.enc2 b0 b1) := fun _ => (classify_append 0x02#8 _).trans rfl

theorem enc3 (b0 b1 b2 : Byte) : Statement (.enc3 b0 b1 b2) := fun _ => (classify_append 0x03#8 _).trans rfl

theorem dec (text : List Byte) : Statement (.dec text) := by
  intro h
  simp only [Instr.wellFormed, Bool.and_eq_true, decide_eq_true_eq] at h
  exact (classify_append _ _).trans (classify_dec_control (text.length - 1) (by omega))

theorem decl (text : List Byte) : Statement (.decl text) := by
  intro h
  simp only [Instr.wellFormed, Bool.and_eq_true, decide_eq_true_eq] at h
  exact (classify_append _ _).trans (classify_decl_control (text.length - 1) (by omega))

end Sys2Proof.Laws.EncodedClass
end

