-- ==== Sys2Proof/Laws/State.lean ====
section
/-! SUPPORT. The fields of a state after each operation on the ports. -/

namespace Sys2Proof.Machine

/-! ### offerResponse -/

@[simp] theorem offerResponse_rst (s : State) (r : Word) : (s.offerResponse r).rst = s.rst := rfl
@[simp] theorem offerResponse_cmdValid (s : State) (r : Word) : (s.offerResponse r).cmdValid = s.cmdValid := rfl
@[simp] theorem offerResponse_cmdData (s : State) (r : Word) : (s.offerResponse r).cmdData = s.cmdData := rfl
@[simp] theorem offerResponse_cmdReady (s : State) (r : Word) : (s.offerResponse r).cmdReady = s.cmdReady := rfl
@[simp] theorem offerResponse_rspValid (s : State) (r : Word) : (s.offerResponse r).rspValid = true := rfl
@[simp] theorem offerResponse_rspData (s : State) (r : Word) : (s.offerResponse r).rspData = r := rfl
@[simp] theorem offerResponse_rspReady (s : State) (r : Word) : (s.offerResponse r).rspReady = s.rspReady := rfl
@[simp] theorem offerResponse_q (s : State) (r : Word) : (s.offerResponse r).q = s.q := rfl
@[simp] theorem offerResponse_program (s : State) (r : Word) : (s.offerResponse r).program = s.program := rfl
@[simp] theorem offerResponse_moves (s : State) (r : Word) : (s.offerResponse r).moves = s.moves := rfl
@[simp] theorem offerResponse_habit (s : State) (r : Word) : (s.offerResponse r).habit = s.habit := rfl
@[simp] theorem offerResponse_trace (s : State) (r : Word) : (s.offerResponse r).trace = s.trace := rfl
@[simp] theorem offerResponse_draws (s : State) (r : Word) : (s.offerResponse r).draws = s.draws := rfl

/-! ### idleResponse -/

@[simp] theorem idleResponse_rst (s : State) : s.idleResponse.rst = s.rst := rfl
@[simp] theorem idleResponse_cmdValid (s : State) : s.idleResponse.cmdValid = s.cmdValid := rfl
@[simp] theorem idleResponse_cmdData (s : State) : s.idleResponse.cmdData = s.cmdData := rfl
@[simp] theorem idleResponse_cmdReady (s : State) : s.idleResponse.cmdReady = s.cmdReady := rfl
@[simp] theorem idleResponse_rspValid (s : State) : s.idleResponse.rspValid = false := rfl
@[simp] theorem idleResponse_rspReady (s : State) : s.idleResponse.rspReady = s.rspReady := rfl
@[simp] theorem idleResponse_q (s : State) : s.idleResponse.q = s.q := rfl
@[simp] theorem idleResponse_program (s : State) : s.idleResponse.program = s.program := rfl
@[simp] theorem idleResponse_moves (s : State) : s.idleResponse.moves = s.moves := rfl
@[simp] theorem idleResponse_habit (s : State) : s.idleResponse.habit = s.habit := rfl
@[simp] theorem idleResponse_trace (s : State) : s.idleResponse.trace = s.trace := rfl
@[simp] theorem idleResponse_draws (s : State) : s.idleResponse.draws = s.draws + 1 := rfl

/-! ### hostOffer: only the offer and the program change -/

/-- What the host's offer can do: nothing, or move the next command to the port. -/
theorem hostOffer_cases (m : Move) (s : State) :
    (s.hostOffer m = s ∧ (s.cmdValid = true ∨ m.offer = false ∨ s.program = [])) ∨
    (s.cmdValid = false ∧ m.offer = true ∧ ∃ c cs, s.program = c :: cs ∧
      s.hostOffer m = { s with cmdValid := true, cmdData := c, program := cs }) := by
  unfold State.hostOffer
  split
  · next h => left; simp at h; exact ⟨rfl, by tauto⟩
  · next h =>
    simp at h
    split
    · next hp => left; exact ⟨rfl, .inr (.inr hp)⟩
    · next c cs hp => right; exact ⟨h.1, h.2, c, cs, hp, rfl⟩

/-- A pending offer is held (10_state.md R26). -/
theorem hostOffer_of_pending (m : Move) {s : State} (h : s.cmdValid = true) : s.hostOffer m = s := by
  simp [State.hostOffer, h]

@[simp] theorem hostOffer_rst (m : Move) (s : State) : (s.hostOffer m).rst = s.rst := by
  unfold State.hostOffer; split <;> [rfl; split <;> rfl]
@[simp] theorem hostOffer_cmdReady (m : Move) (s : State) : (s.hostOffer m).cmdReady = s.cmdReady := by
  unfold State.hostOffer; split <;> [rfl; split <;> rfl]
@[simp] theorem hostOffer_rspValid (m : Move) (s : State) : (s.hostOffer m).rspValid = s.rspValid := by
  unfold State.hostOffer; split <;> [rfl; split <;> rfl]
@[simp] theorem hostOffer_rspData (m : Move) (s : State) : (s.hostOffer m).rspData = s.rspData := by
  unfold State.hostOffer; split <;> [rfl; split <;> rfl]
@[simp] theorem hostOffer_rspReady (m : Move) (s : State) : (s.hostOffer m).rspReady = s.rspReady := by
  unfold State.hostOffer; split <;> [rfl; split <;> rfl]
@[simp] theorem hostOffer_q (m : Move) (s : State) : (s.hostOffer m).q = s.q := by
  unfold State.hostOffer; split <;> [rfl; split <;> rfl]
@[simp] theorem hostOffer_moves (m : Move) (s : State) : (s.hostOffer m).moves = s.moves := by
  unfold State.hostOffer; split <;> [rfl; split <;> rfl]
@[simp] theorem hostOffer_habit (m : Move) (s : State) : (s.hostOffer m).habit = s.habit := by
  unfold State.hostOffer; split <;> [rfl; split <;> rfl]
@[simp] theorem hostOffer_trace (m : Move) (s : State) : (s.hostOffer m).trace = s.trace := by
  unfold State.hostOffer; split <;> [rfl; split <;> rfl]

/-- The host's offer loses and reorders no command. -/
theorem hostOffer_pending_program (m : Move) (s : State) :
    (s.hostOffer m).pending ++ (s.hostOffer m).program = s.pending ++ s.program := by
  obtain ⟨h, -⟩ | ⟨hv, -, c, cs, hp, h⟩ := hostOffer_cases m s
  · rw [h]
  · simp [h, State.pending, hv, hp]

/-! ### blockDrive and drive -/

@[simp] theorem blockDrive_rst (m : Move) (s : State) : (s.blockDrive m).rst = s.rst := by
  unfold State.blockDrive; dsimp only; split <;> rfl
@[simp] theorem blockDrive_cmdValid (m : Move) (s : State) : (s.blockDrive m).cmdValid = s.cmdValid := by
  unfold State.blockDrive; dsimp only; split <;> rfl
@[simp] theorem blockDrive_cmdData (m : Move) (s : State) : (s.blockDrive m).cmdData = s.cmdData := by
  unfold State.blockDrive; dsimp only; split <;> rfl
@[simp] theorem blockDrive_cmdReady (m : Move) (s : State) : (s.blockDrive m).cmdReady = s.readyLevel m := by
  unfold State.blockDrive; dsimp only; split <;> rfl
@[simp] theorem blockDrive_rspReady (m : Move) (s : State) : (s.blockDrive m).rspReady = s.rspReady := by
  unfold State.blockDrive; dsimp only; split <;> rfl
@[simp] theorem blockDrive_q (m : Move) (s : State) : (s.blockDrive m).q = s.q := by
  unfold State.blockDrive; dsimp only; split <;> rfl
@[simp] theorem blockDrive_program (m : Move) (s : State) : (s.blockDrive m).program = s.program := by
  unfold State.blockDrive; dsimp only; split <;> rfl
@[simp] theorem blockDrive_moves (m : Move) (s : State) : (s.blockDrive m).moves = s.moves := by
  unfold State.blockDrive; dsimp only; split <;> rfl
@[simp] theorem blockDrive_habit (m : Move) (s : State) : (s.blockDrive m).habit = s.habit := by
  unfold State.blockDrive; dsimp only; split <;> rfl
@[simp] theorem blockDrive_trace (m : Move) (s : State) : (s.blockDrive m).trace = s.trace := by
  unfold State.blockDrive; dsimp only; split <;> rfl
@[simp] theorem blockDrive_rspValid (m : Move) (s : State) : (s.blockDrive m).rspValid = (s.rspValid && !s.rst) := by
  unfold State.blockDrive; dsimp only
  split
  · next h => exact (by simpa using h : s.rspValid = true ∧ s.rst = false) |> fun h => by simp [h.1, h.2]
  · next h => simp only [idleResponse_rspValid]; simpa using h
theorem blockDrive_rspData_of_held (m : Move) {s : State} (hv : s.rspValid = true) (hr : s.rst = false) :
    (s.blockDrive m).rspData = s.rspData := by simp [State.blockDrive, hv, hr]

@[simp] theorem drive_rst (m : Move) (s : State) : (s.drive m).rst = m.rst := by simp [State.drive, State.hostDrive]
@[simp] theorem drive_cmdValid (m : Move) (s : State) : (s.drive m).cmdValid = (s.hostOffer m).cmdValid := by
  simp [State.drive, State.hostDrive]
@[simp] theorem drive_cmdData (m : Move) (s : State) : (s.drive m).cmdData = (s.hostOffer m).cmdData := by
  simp [State.drive, State.hostDrive]
@[simp] theorem drive_rspReady (m : Move) (s : State) : (s.drive m).rspReady = m.take := by
  simp [State.drive, State.hostDrive]
@[simp] theorem drive_q (m : Move) (s : State) : (s.drive m).q = s.q := by simp [State.drive, State.hostDrive]
@[simp] theorem drive_program (m : Move) (s : State) : (s.drive m).program = (s.hostOffer m).program := by
  simp [State.drive, State.hostDrive]
@[simp] theorem drive_moves (m : Move) (s : State) : (s.drive m).moves = s.moves.tail := by
  simp [State.drive, State.hostDrive]
@[simp] theorem drive_habit (m : Move) (s : State) : (s.drive m).habit = s.habit := by
  simp [State.drive, State.hostDrive]
@[simp] theorem drive_trace (m : Move) (s : State) : (s.drive m).trace = s.trace := by
  simp [State.drive, State.hostDrive]
@[simp] theorem drive_rspValid (m : Move) (s : State) : (s.drive m).rspValid = (s.rspValid && !m.rst) := by
  simp [State.drive, State.hostDrive]
theorem drive_rspData_of_held (m : Move) {s : State} (hv : s.rspValid = true) (hr : m.rst = false) :
    (s.drive m).rspData = s.rspData := by
  rw [State.drive, blockDrive_rspData_of_held] <;> simp [State.hostDrive, hv, hr]
/-- Outside reset the block is ready when it is willing and `Q` has room (10_state.md R29). -/
theorem drive_cmdReady_of_not_reset (m : Move) (s : State) (hr : m.rst = false) :
    (s.drive m).cmdReady = (m.ready && decide (s.q.length < Config.qdepth)) := by
  simp [State.drive, State.hostDrive, State.readyLevel, hr]

/-! ### The edge -/

@[simp] theorem resetEdge_q (s : State) : s.resetEdge.q = [] := rfl
@[simp] theorem resetEdge_rspValid (s : State) : s.resetEdge.rspValid = false := rfl
@[simp] theorem resetEdge_trace (s : State) : s.resetEdge.trace = s.trace ++ [Event.reset] := rfl
@[simp] theorem resetEdge_cmdValid (s : State) : s.resetEdge.cmdValid = s.cmdValid := rfl
@[simp] theorem resetEdge_cmdData (s : State) : s.resetEdge.cmdData = s.cmdData := rfl
@[simp] theorem resetEdge_program (s : State) : s.resetEdge.program = s.program := rfl
@[simp] theorem resetEdge_moves (s : State) : s.resetEdge.moves = s.moves := rfl
@[simp] theorem resetEdge_habit (s : State) : s.resetEdge.habit = s.habit := rfl
@[simp] theorem resetEdge_rst (s : State) : s.resetEdge.rst = s.rst := rfl

@[simp] theorem deliver_rst (s : State) : s.deliver.rst = s.rst := by unfold State.deliver; split <;> rfl
@[simp] theorem deliver_cmdValid (s : State) : s.deliver.cmdValid = s.cmdValid := by
  unfold State.deliver; split <;> rfl
@[simp] theorem deliver_cmdData (s : State) : s.deliver.cmdData = s.cmdData := by unfold State.deliver; split <;> rfl
@[simp] theorem deliver_cmdReady (s : State) : s.deliver.cmdReady = s.cmdReady := by
  unfold State.deliver; split <;> rfl
@[simp] theorem deliver_program (s : State) : s.deliver.program = s.program := by unfold State.deliver; split <;> rfl
@[simp] theorem deliver_moves (s : State) : s.deliver.moves = s.moves := by unfold State.deliver; split <;> rfl
@[simp] theorem deliver_habit (s : State) : s.deliver.habit = s.habit := by unfold State.deliver; split <;> rfl
theorem deliver_q (s : State) :
    s.deliver.q = if s.rspValid = true ∧ s.rspReady = true then s.q.tail else s.q := by
  unfold State.deliver; simp only [Bool.and_eq_true]; split <;> rfl
theorem deliver_trace (s : State) :
    s.deliver.trace = s.trace ++ if s.rspValid = true ∧ s.rspReady = true then [Event.respond s.rspData] else [] := by
  unfold State.deliver; simp only [Bool.and_eq_true]; split <;> simp
@[simp] theorem deliver_rspValid (s : State) : s.deliver.rspValid = (s.rspValid && !s.rspReady) := by
  unfold State.deliver
  cases hv : s.rspValid <;> cases hr : s.rspReady <;> simp [hv]
theorem deliver_rspData_of_held {s : State} (h : s.rspReady = false) : s.deliver.rspData = s.rspData := by
  simp [State.deliver, h]

@[simp] theorem accept_rst (s : State) : s.accept.rst = s.rst := by unfold State.accept; split <;> rfl
@[simp] theorem accept_rspValid (s : State) : s.accept.rspValid = s.rspValid := by unfold State.accept; split <;> rfl
@[simp] theorem accept_rspData (s : State) : s.accept.rspData = s.rspData := by unfold State.accept; split <;> rfl
@[simp] theorem accept_cmdData (s : State) : s.accept.cmdData = s.cmdData := by unfold State.accept; split <;> rfl
@[simp] theorem accept_program (s : State) : s.accept.program = s.program := by unfold State.accept; split <;> rfl
@[simp] theorem accept_moves (s : State) : s.accept.moves = s.moves := by unfold State.accept; split <;> rfl
@[simp] theorem accept_habit (s : State) : s.accept.habit = s.habit := by unfold State.accept; split <;> rfl
@[simp] theorem accept_cmdValid (s : State) : s.accept.cmdValid = (s.cmdValid && !s.cmdReady) := by
  unfold State.accept
  cases hv : s.cmdValid <;> cases hr : s.cmdReady <;> simp [hv]
theorem accept_q (s : State) :
    s.accept.q = s.q ++ if s.cmdValid = true ∧ s.cmdReady = true then [s.cmdData] else [] := by
  unfold State.accept; simp only [Bool.and_eq_true]; split <;> simp
theorem accept_trace (s : State) :
    s.accept.trace = s.trace ++ if s.cmdValid = true ∧ s.cmdReady = true then [Event.accept s.cmdData] else [] := by
  unfold State.accept; simp only [Bool.and_eq_true]; split <;> simp

theorem edge_of_reset {s : State} (h : s.rst = true) : s.edge = s.resetEdge := by simp [State.edge, h]
theorem edge_of_not_reset {s : State} (h : s.rst = false) : s.edge = s.deliver.accept := by simp [State.edge, h]
@[simp] theorem edge_moves (s : State) : s.edge.moves = s.moves := by unfold State.edge; split <;> simp
@[simp] theorem edge_habit (s : State) : s.edge.habit = s.habit := by unfold State.edge; split <;> simp
@[simp] theorem edge_rst (s : State) : s.edge.rst = s.rst := by unfold State.edge; split <;> simp
@[simp] theorem edge_program (s : State) : s.edge.program = s.program := by unfold State.edge; split <;> simp
@[simp] theorem edge_cmdData (s : State) : s.edge.cmdData = s.cmdData := by unfold State.edge; split <;> simp

end Sys2Proof.Machine
end

