-- ==== Sys2Proof/Laws/Transaction.lean ====
section
/-! SUPPORT. The transaction model (10_state.md R29): runs, responses and acceptances of histories put together. -/

namespace Sys2Proof.Machine

theorem replay_append (depth : Nat) (q : List Word) (es fs : List Event) :
    replay depth q (es ++ fs) = (replay depth q es).bind fun q' => replay depth q' fs := by
  induction es generalizing q with
  | nil => rfl
  | cons e es ih =>
    simp only [List.cons_append, replay]
    cases e.apply depth q <;> simp [ih]

/-- Commands enter the queue one after the other while it has room. -/
theorem replay_accepts {depth : Nat} (c : Word) (n : Nat) (q : List Word) (h : q.length + n ≤ depth) :
    replay depth q (List.replicate n (.accept c)) = some (q ++ List.replicate n c) := by
  induction n generalizing q with
  | zero => simp [replay]
  | succ n ih =>
    have hq : q.length < depth := by omega
    simp only [List.replicate_succ, replay, Event.apply, hq, if_true]
    rw [ih _ (by simp; omega)]
    simp

@[simp] theorem responsesOf_append (es fs : List Event) : responsesOf (es ++ fs) = responsesOf es ++ responsesOf fs := by
  induction es with
  | nil => rfl
  | cons e es ih => cases e <;> simp [responsesOf, ih]

@[simp] theorem acceptedOf_append (es fs : List Event) : acceptedOf (es ++ fs) = acceptedOf es ++ acceptedOf fs := by
  induction es with
  | nil => rfl
  | cons e es ih => cases e <;> simp [acceptedOf, ih]

@[simp] theorem responsesOf_nil : responsesOf [] = [] := rfl
@[simp] theorem responsesOf_respond (r : Word) : responsesOf [.respond r] = [r] := rfl
@[simp] theorem responsesOf_accept (c : Word) : responsesOf [.accept c] = [] := rfl
@[simp] theorem responsesOf_reset : responsesOf [.reset] = [] := rfl
@[simp] theorem acceptedOf_nil : acceptedOf [] = [] := rfl
@[simp] theorem acceptedOf_respond (r : Word) : acceptedOf [.respond r] = [] := rfl
@[simp] theorem acceptedOf_accept (c : Word) : acceptedOf [.accept c] = [c] := rfl
@[simp] theorem acceptedOf_reset : acceptedOf [.reset] = [] := rfl

/-- What one transaction does to the queue when it is enabled. -/
theorem apply_cases {depth : Nat} {q q' : List Word} {e : Event} (h : e.apply depth q = some q') :
    (∃ c, e = .accept c ∧ q.length < depth ∧ q' = q ++ [c]) ∨
    (∃ w, e = .respond (respond w) ∧ q = w :: q') ∨ (e = .reset ∧ q' = []) := by
  cases e with
  | accept c =>
    simp only [Event.apply] at h
    split at h <;> simp_all
  | respond r =>
    simp only [Event.apply] at h
    split at h
    · cases h
    · split at h <;> simp_all
  | reset => simp_all [Event.apply]

/-- A run without reset keeps the sequence of responses given and due. -/
theorem replay_responses {depth : Nat} {es : List Event} {q q' : List Word} (h : replay depth q es = some q')
    (hr : Event.reset ∉ es) :
    q.map respond ++ (acceptedOf es).map respond = responsesOf es ++ q'.map respond := by
  induction es generalizing q with
  | nil => simp_all [replay, acceptedOf, responsesOf]
  | cons e es ih =>
    simp only [List.mem_cons, not_or] at hr
    simp only [replay] at h
    split at h
    · cases h
    · next q1 hq =>
      have hi := ih h hr.2
      obtain ⟨c, rfl, -, rfl⟩ | ⟨w, rfl, rfl⟩ | ⟨rfl, -⟩ := apply_cases hq
      · simpa [acceptedOf, responsesOf] using hi
      · simpa [acceptedOf, responsesOf] using hi
      · exact absurd rfl hr.1

theorem reset_not_mem_sinceReset (es : List Event) : Event.reset ∉ sinceReset es := by
  induction es with
  | nil => simp [sinceReset]
  | cons e es ih =>
    simp only [sinceReset]
    split
    · exact ih
    · next h => split <;> simp_all [eq_comm]

/-- A run from the empty queue is, as far as its queue goes, the run since its last reset. -/
theorem replay_sinceReset {depth : Nat} {es : List Event} {q' : List Word} (h : replay depth [] es = some q') :
    replay depth [] (sinceReset es) = some q' := by
  suffices key : ∀ (es : List Event) (q : List Word), replay depth q es = some q' →
      (Event.reset ∈ es ∨ q = []) → replay depth [] (sinceReset es) = some q' from key es [] h (.inr rfl)
  intro es
  induction es with
  | nil => intro q h hq; simp_all [sinceReset]
  | cons e es ih =>
    intro q h hq
    simp only [sinceReset]
    by_cases hm : Event.reset ∈ es
    · simp only [hm, if_true]
      simp only [replay] at h
      split at h
      · cases h
      · next q1 _ => exact ih q1 h (.inl hm)
    · simp only [hm, if_false]
      by_cases he : e = .reset
      · subst he; simpa [replay, Event.apply] using h
      · simp only [he, if_false]
        have : q = [] := by simp_all [eq_comm]
        exact this ▸ h

end Sys2Proof.Machine
end

