-- ==== Sys2Proof/Laws/Step.lean ====
section
/-! SUPPORT. What a cycle does, said once. -/

namespace Sys2Proof.Machine

/-- A command answers with its response and does nothing else. -/
theorem exec_eq (i : Instr) (s : State) : exec i s = .next (s.offerResponse (instrResponse i)) := by
  cases i <;> rfl

/-- The block answers a command word with `respond` of it. -/
theorem runCommand_eq (w : Word) (s : State) : runCommand w s = .next (s.offerResponse (respond w)) := by
  cases h : decode w with
  | ok i => simp only [runCommand, respond, h, exec_eq]
  | error e => simp only [runCommand, respond, h, answerReserved]

/-- The state in a cycle after the block has answered, if it does. -/
def State.answered (go : Bool) (s : State) : State :=
  if s.rst || s.rspValid || !go then s
  else
    match s.q.head? with
    | none => s
    | some w => s.offerResponse (respond w)

theorem answer_eq (go : Bool) (s : State) : answer go s = .next (s.answered go) := by
  unfold answer State.answered State.fetch
  split
  · rfl
  · split <;> simp_all [runCommand_eq]

/-- A cycle always completes, in this state. -/
theorem step_eq (s : State) : step s = .next ((s.drive s.nextMove).answered s.nextMove.answer).edge := by
  simp [step, answer_eq, finishCycle]

@[simp] theorem answered_rst (go : Bool) (s : State) : (s.answered go).rst = s.rst := by
  unfold State.answered; split <;> [rfl; split <;> rfl]
@[simp] theorem answered_cmdValid (go : Bool) (s : State) : (s.answered go).cmdValid = s.cmdValid := by
  unfold State.answered; split <;> [rfl; split <;> rfl]
@[simp] theorem answered_cmdData (go : Bool) (s : State) : (s.answered go).cmdData = s.cmdData := by
  unfold State.answered; split <;> [rfl; split <;> rfl]
@[simp] theorem answered_cmdReady (go : Bool) (s : State) : (s.answered go).cmdReady = s.cmdReady := by
  unfold State.answered; split <;> [rfl; split <;> rfl]
@[simp] theorem answered_rspReady (go : Bool) (s : State) : (s.answered go).rspReady = s.rspReady := by
  unfold State.answered; split <;> [rfl; split <;> rfl]
@[simp] theorem answered_q (go : Bool) (s : State) : (s.answered go).q = s.q := by
  unfold State.answered; split <;> [rfl; split <;> rfl]
@[simp] theorem answered_program (go : Bool) (s : State) : (s.answered go).program = s.program := by
  unfold State.answered; split <;> [rfl; split <;> rfl]
@[simp] theorem answered_moves (go : Bool) (s : State) : (s.answered go).moves = s.moves := by
  unfold State.answered; split <;> [rfl; split <;> rfl]
@[simp] theorem answered_habit (go : Bool) (s : State) : (s.answered go).habit = s.habit := by
  unfold State.answered; split <;> [rfl; split <;> rfl]
@[simp] theorem answered_trace (go : Bool) (s : State) : (s.answered go).trace = s.trace := by
  unfold State.answered; split <;> [rfl; split <;> rfl]

/-- In reset the block offers nothing. -/
theorem answered_of_reset (go : Bool) {s : State} (h : s.rst = true) : s.answered go = s := by
  simp [State.answered, h]

/-- A held response stays (10_state.md R26). -/
theorem answered_of_held (go : Bool) {s : State} (h : s.rspValid = true) : s.answered go = s := by
  simp [State.answered, h]

/-- With nothing held and its latency over, the head of the queue is answered. -/
theorem answered_of_head {s : State} {w : Word} {rest : List Word} (hr : s.rst = false) (hv : s.rspValid = false)
    (hq : s.q = w :: rest) : s.answered true = s.offerResponse (respond w) := by
  simp [State.answered, hr, hv, hq]

/-- An offered response is the head's, if it was before. -/
theorem answered_held {go : Bool} {s : State} (h : s.rspValid = true → s.q.head?.map respond = some s.rspData) :
    (s.answered go).rspValid = true → (s.answered go).q.head?.map respond = some (s.answered go).rspData := by
  unfold State.answered
  split
  · exact h
  · split
    · exact h
    · next w hw => intro _; simp [hw]

/-- The state of a cycle just before its edge. -/
def State.settled (s : State) : State := (s.drive s.nextMove).answered s.nextMove.answer

theorem step_eq_settled (s : State) : step s = .next s.settled.edge := step_eq s

@[simp] theorem settled_rst (s : State) : s.settled.rst = s.nextMove.rst := by simp [State.settled]
@[simp] theorem settled_q (s : State) : s.settled.q = s.q := by simp [State.settled]
@[simp] theorem settled_trace (s : State) : s.settled.trace = s.trace := by simp [State.settled]
@[simp] theorem settled_moves (s : State) : s.settled.moves = s.moves.tail := by simp [State.settled]
@[simp] theorem settled_habit (s : State) : s.settled.habit = s.habit := by simp [State.settled]
@[simp] theorem settled_rspReady (s : State) : s.settled.rspReady = s.nextMove.take := by simp [State.settled]
@[simp] theorem settled_cmdValid (s : State) : s.settled.cmdValid = (s.hostOffer s.nextMove).cmdValid := by
  simp [State.settled]
@[simp] theorem settled_cmdData (s : State) : s.settled.cmdData = (s.hostOffer s.nextMove).cmdData := by
  simp [State.settled]
@[simp] theorem settled_program (s : State) : s.settled.program = (s.hostOffer s.nextMove).program := by
  simp [State.settled]
theorem settled_cmdReady {s : State} (h : s.nextMove.rst = false) :
    s.settled.cmdReady = (s.nextMove.ready && decide (s.q.length < Config.qdepth)) := by
  simp [State.settled, drive_cmdReady_of_not_reset _ _ h]

/-- Just before the edge an offered response is the head's. -/
theorem settled_held {s : State} (h : s.rspValid = true → s.q.head?.map respond = some s.rspData) :
    s.settled.rspValid = true → s.q.head?.map respond = some s.settled.rspData := by
  have := answered_held (go := s.nextMove.answer) (s := s.drive s.nextMove) (by
    intro hv
    simp only [drive_rspValid, Bool.and_eq_true, Bool.not_eq_true'] at hv
    rw [drive_rspData_of_held _ hv.1 hv.2, drive_q]
    exact h hv.1)
  simpa [State.settled] using this

/-- Nothing is offered in a reset cycle (log 8). -/
theorem settled_quiet {s : State} (h : s.nextMove.rst = true) : s.settled.rspValid = false := by
  simp [State.settled, answered_of_reset, h]

/-- Before the edge the outstanding commands are what they were. -/
theorem settled_outstanding (s : State) : s.settled.outstanding = s.outstanding := by
  have h := hostOffer_pending_program s.nextMove s
  simp only [State.pending] at h
  simp only [State.outstanding, State.pending, settled_q, settled_cmdValid, settled_cmdData, settled_program,
    List.append_assoc, h]

/-! ### What the edge of a cycle without reset can do -/

/-- The response transfer of a cycle: none, or the head of the queue leaves with its own response. -/
theorem deliver_cases {s : State} (h : s.rspValid = true → s.q.head?.map respond = some s.rspData) :
    (s.deliver = s ∧ (s.rspValid = false ∨ s.rspReady = false)) ∨
    (s.rspValid = true ∧ s.rspReady = true ∧ ∃ w rest, s.q = w :: rest ∧ s.deliver.q = rest ∧
      s.deliver.rspValid = false ∧ s.deliver.trace = s.trace ++ [Event.respond (respond w)]) := by
  cases hv : s.rspValid
  · left; exact ⟨by simp [State.deliver, hv], .inl rfl⟩
  · cases hr : s.rspReady
    · left; exact ⟨by simp [State.deliver, hr], .inr rfl⟩
    · right
      have hh := h hv
      cases hq : s.q with
      | nil => simp [hq] at hh
      | cons w rest =>
        simp only [hq, List.head?_cons, Option.map_some, Option.some.injEq] at hh
        exact ⟨rfl, rfl, w, rest, rfl, by simp [deliver_q, hv, hr, hq], by simp [hr], by simp [deliver_trace, hv, hr, hh]⟩

/-- The command transfer of a cycle: none, or the offered command enters the queue. -/
theorem accept_cases (s : State) :
    (s.accept = s ∧ (s.cmdValid = false ∨ s.cmdReady = false)) ∨
    (s.cmdValid = true ∧ s.cmdReady = true ∧ s.accept.q = s.q ++ [s.cmdData] ∧ s.accept.cmdValid = false ∧
      s.accept.trace = s.trace ++ [Event.accept s.cmdData]) := by
  cases hv : s.cmdValid
  · left; exact ⟨by simp [State.accept, hv], .inl rfl⟩
  · cases hr : s.cmdReady
    · left; exact ⟨by simp [State.accept, hr], .inr rfl⟩
    · right; exact ⟨rfl, rfl, by simp [accept_q, hv, hr], by simp [hr], by simp [accept_trace, hv, hr]⟩

/-- The edge of a cycle without reset keeps the sequence of commands from the queue through the port to the program, but
for a head that is answered. -/
theorem accept_outstanding (s : State) : s.accept.outstanding = s.outstanding := by
  obtain ⟨h, -⟩ | ⟨hv, hr, hq, hc, -⟩ := accept_cases s
  · rw [h]
  · rw [State.outstanding, State.outstanding, State.pending, hq, hc]
    simp [State.pending, hv]

/-- A transfer of a response takes the head off the outstanding commands and gives the host its response. -/
theorem deliver_outstanding {s : State} (h : s.rspValid = true → s.q.head?.map respond = some s.rspData) :
    s.deliver.received ++ s.deliver.outstanding.map respond = s.received ++ s.outstanding.map respond := by
  obtain ⟨he, -⟩ | ⟨-, -, w, rest, hq, hq', -, ht⟩ := deliver_cases h
  · rw [he]
  · simp [State.received, State.outstanding, State.pending, hq, hq', ht]

@[simp] theorem accept_received (s : State) : s.accept.received = s.received := by
  obtain ⟨h, -⟩ | ⟨-, -, -, -, h⟩ := accept_cases s <;> simp [State.received, h]

@[simp] theorem deliver_accepted (s : State) : acceptedOf s.deliver.trace = acceptedOf s.trace := by
  rw [deliver_trace]; split <;> simp

@[simp] theorem settled_received (s : State) : s.settled.received = s.received := by simp [State.received]

end Sys2Proof.Machine
end

