-- ==== Sys2Proof/Laws/Runs.lean ====
section
/-! SUPPORT. Runs of several cycles. -/

namespace Sys2Proof.Machine

theorem qdepth_pos : 0 < Config.qdepth := Nat.succ_pos _

/-- Transactions keep the queue within its depth (10_state.md R27). -/
theorem replay_length {depth : Nat} {q q' : List Word} {es : List Event} (h : replay depth q es = some q')
    (hq : q.length ≤ depth) : q'.length ≤ depth := by
  induction es generalizing q with
  | nil => simp_all [replay]
  | cons e es ih =>
    simp only [replay] at h
    split at h
    · cases h
    · next q1 h1 =>
      refine ih h ?_
      obtain ⟨c, rfl, hl, rfl⟩ | ⟨w, rfl, rfl⟩ | ⟨rfl, rfl⟩ := apply_cases h1
      · simp; omega
      · simp at hq; omega
      · simp

/-- A cycle uses up at most one listed move and keeps the habit. -/
theorem schedule_step {s t : State} (hst : step s = .next t) : (∀ m ∈ t.moves, m ∈ s.moves) ∧ t.habit = s.habit := by
  rw [step_eq_settled] at hst
  cases hst
  exact ⟨fun m hm => List.mem_of_mem_tail (by simpa using hm), by simp⟩

theorem nextMove_of_noReset {s : State} (h : s.noReset) : s.nextMove.rst = false := by
  unfold State.nextMove
  split
  · exact h.2
  · next m ms hm => exact h.1 m (by simp [hm])

theorem noReset_step {s t : State} (h : s.noReset) (hst : step s = .next t) : t.noReset := by
  obtain ⟨hm, hh⟩ := schedule_step hst
  exact ⟨fun m hmem => h.1 m (hm m hmem), hh ▸ h.2⟩

theorem hostTakes_noReset {s : State} (h : s.hostTakes) : s.noReset := h.1

theorem hostTakes_step {s t : State} (h : s.hostTakes) (hst : step s = .next t) : t.hostTakes := by
  obtain ⟨hm, hh⟩ := schedule_step hst
  exact ⟨noReset_step h.1 hst, fun m hmem => h.2.1 m (hm m hmem), hh ▸ h.2.2⟩

theorem nextMove_of_hostTakes {s : State} (h : s.hostTakes) : s.nextMove.take = true := by
  unfold State.nextMove
  split
  · exact h.2.2
  · next m ms hm => exact h.2.1 m (by simp [hm])

theorem hostNeverTakes_step {s t : State} (h : s.hostNeverTakes) (hst : step s = .next t) : t.hostNeverTakes := by
  obtain ⟨hm, hh⟩ := schedule_step hst
  exact ⟨fun m hmem => h.1 m (hm m hmem), hh ▸ h.2⟩

theorem nextMove_of_hostNeverTakes {s : State} (h : s.hostNeverTakes) : s.nextMove.take = false := by
  unfold State.nextMove
  split
  · exact h.2
  · next m ms hm => exact h.1 m (by simp [hm])

theorem hostGoesOn_step {s t : State} (h : s.hostGoesOn) (hst : step s = .next t) : t.hostGoesOn := by
  obtain ⟨-, hh⟩ := schedule_step hst
  rw [State.hostGoesOn, hh]
  exact h

theorem reaches_zero {s t : State} : State.Reaches 0 s t ↔ s = t := by
  simp only [State.Reaches, Host.Core.run]
  exact ⟨fun h => by cases h; rfl, fun h => h ▸ rfl⟩

theorem reaches_succ {n : Nat} {s t : State} :
    State.Reaches (n + 1) s t ↔ ∃ u, step s = .next u ∧ State.Reaches n u t := by
  rw [step_eq]
  simp only [State.Reaches, Host.Core.run, Sys2Proof.core, step_eq]
  simp

theorem reaches_add {m n : Nat} {s t u : State} (h : State.Reaches m s t) (h2 : State.Reaches n t u) :
    State.Reaches (m + n) s u := by
  induction m generalizing s with
  | zero => rw [reaches_zero] at h; subst h; simpa using h2
  | succ m ih =>
    obtain ⟨v, hv, h⟩ := reaches_succ.1 h
    rw [show m + 1 + n = (m + n) + 1 by omega]
    exact reaches_succ.2 ⟨v, hv, ih h⟩

/-- A response received stays received. -/
theorem received_mono {s t : State} (hst : step s = .next t) : s.received <+: t.received := by
  rw [step_eq_settled] at hst
  cases hst
  unfold State.edge
  split
  · simp [State.received]
  · rw [accept_received]; simp [State.received, deliver_trace]

theorem received_mono_reaches {n : Nat} {s t : State} (h : State.Reaches n s t) : s.received <+: t.received := by
  induction n generalizing s with
  | zero => rw [reaches_zero] at h; rw [h]
  | succ n ih =>
    obtain ⟨u, hu, h⟩ := reaches_succ.1 h
    exact (received_mono hu).trans (ih h)

end Sys2Proof.Machine
end

