-- ==== Sys2Proof/Laws/Stream.lean ====
section
/-! SUPPORT. Groups and responses of whole sequences. -/

namespace Sys2Proof.Machine

/-- The characters of a response given lane by lane (42_stream.md R133). -/
theorem groupChars_successWord (n : BitVec 2) (c0 c1 c2 c3 : Byte) :
    groupChars (successWord n (c0 ++ c1 ++ c2 ++ c3)) = [c0, c1, c2, c3] := by
  obtain ⟨h0, h1, h2, h3⟩ := rspLane_successWord n c0 c1 c2 c3
  rw [groupChars, h0, h1, h2, h3]

/-- The bytes of a response given lane by lane (42_stream.md R136). -/
theorem groupBytes_successWord (n : BitVec 2) (z b0 b1 b2 : Byte) :
    groupBytes (successWord n (z ++ b0 ++ b1 ++ b2)) = [b0, b1, b2].take n.toNat := by
  obtain ⟨-, h1, h2, h3⟩ := rspLane_successWord n z b0 b1 b2
  rw [groupBytes, h1, h2, h3, rspCount_successWord]

@[simp] theorem responsesTo_nil : responsesTo [] = [] := rfl

@[simp] theorem responsesTo_cons (i : Instr) (is : List Instr) :
    responsesTo (i :: is) = respond (encode i) :: responsesTo is := rfl

@[simp] theorem encodeExpand_nil : encodeExpand [] = [] := rfl

@[simp] theorem encodeExpand_three (b0 b1 b2 : Byte) (rest : List Byte) :
    encodeExpand (b0 :: b1 :: b2 :: rest) = .enc3 b0 b1 b2 :: encodeExpand rest := rfl

@[simp] theorem decodeExpand_nil : decodeExpand [] = [] := rfl

@[simp] theorem decodeExpand_five (c0 c1 c2 c3 c4 : Byte) (rest : List Byte) :
    decodeExpand (c0 :: c1 :: c2 :: c3 :: c4 :: rest) = .dec [c0, c1, c2, c3] :: decodeExpand (c4 :: rest) := rfl

@[simp] theorem decodeExpand_four (c0 c1 c2 c3 : Byte) : decodeExpand [c0, c1, c2, c3] = [.decl [c0, c1, c2, c3]] := rfl

@[simp] theorem encodeBytes_nil : encodeBytes [] = [] := rfl

/-- ENCODE works group by group (42_stream.md R132, R133). -/
theorem encodeBytes_three (b0 b1 b2 : Byte) (rest : List Byte) :
    encodeBytes (b0 :: b1 :: b2 :: rest) = groupChars (encoderResponse 3 b0 b1 b2) ++ encodeBytes rest := by
  simp [encodeBytes, encodeCombine, respond_enc3]

theorem encodeBytes_two (b0 b1 : Byte) : encodeBytes [b0, b1] = groupChars (encoderResponse 2 b0 b1 0#8) := by
  simp [encodeBytes, encodeCombine, encodeExpand, respond_enc2]

theorem encodeBytes_one (b0 : Byte) : encodeBytes [b0] = groupChars (encoderResponse 1 b0 0#8 0#8) := by
  simp [encodeBytes, encodeCombine, encodeExpand, respond_enc1]

/-- A list is short or starts with a full group of three. -/
theorem threes_induction {P : List Byte → Prop} (h0 : P []) (h1 : ∀ a, P [a]) (h2 : ∀ a b, P [a, b])
    (h3 : ∀ a b c rest, P rest → P (a :: b :: c :: rest)) : ∀ d, P d
  | [] => h0
  | [a] => h1 a
  | [a, b] => h2 a b
  | a :: b :: c :: rest => h3 a b c rest (threes_induction h0 h1 h2 h3 rest)

/-- A text is empty, a last group, or a full group with more after it. -/
theorem fours_induction {P : List Byte → Prop} (h0 : P []) (h1 : ∀ a, P [a]) (h2 : ∀ a b, P [a, b])
    (h3 : ∀ a b c, P [a, b, c]) (h4 : ∀ a b c d, P [a, b, c, d])
    (h5 : ∀ a b c d e rest, P (e :: rest) → P (a :: b :: c :: d :: e :: rest)) : ∀ t, P t
  | [] => h0
  | [a] => h1 a
  | [a, b] => h2 a b
  | [a, b, c] => h3 a b c
  | [a, b, c, d] => h4 a b c d
  | a :: b :: c :: d :: e :: rest => h5 a b c d e rest (fours_induction h0 h1 h2 h3 h4 h5 (e :: rest))

/-- The result of a text whose first group is followed by more, when its length is a multiple of 4: the first group
fails, or it gives three bytes and the rest decides (42_stream.md R136, R137). -/
theorem decodeText_five {c0 c1 c2 c3 c4 : Byte} {rest : List Byte} (h4 : (c4 :: rest).length % 4 = 0) :
    decodeText (c0 :: c1 :: c2 :: c3 :: c4 :: rest) =
      if rspErr (decoderResponse false [c0, c1, c2, c3]) = true then
        .error (rspCause (decoderResponse false [c0, c1, c2, c3]))
      else (decodeText (c4 :: rest)).map (groupBytes (decoderResponse false [c0, c1, c2, c3]) ++ ·) := by
  have hl : (c0 :: c1 :: c2 :: c3 :: c4 :: rest).length % 4 = 0 := by simp at h4 ⊢; omega
  have n1 : (c0 :: c1 :: c2 :: c3 :: c4 :: rest).length ≠ 0 := by simp
  have n2 : (c4 :: rest).length ≠ 0 := by simp
  unfold decodeText decodeCombine
  rw [if_neg n1, if_neg n2]
  simp only [decodeExpand_five, responsesTo_cons, respond_dec4, List.any_cons, List.flatMap_cons]
  cases he : rspErr (decoderResponse false [c0, c1, c2, c3]) with
  | true =>
    simp only [wholeCause, hl]
    simp [he]
  | false =>
    simp only [Bool.false_or, Bool.false_eq_true, if_false]
    split
    · simp only [wholeCause, hl, h4]
      simp [he, Except.map]
    · simp [Except.map]

/-- The result of a text of one group of four (42_stream.md R136, R137). -/
theorem decodeText_four (c0 c1 c2 c3 : Byte) :
    decodeText [c0, c1, c2, c3] =
      if rspErr (decoderResponse true [c0, c1, c2, c3]) = true then
        .error (rspCause (decoderResponse true [c0, c1, c2, c3]))
      else .ok (groupBytes (decoderResponse true [c0, c1, c2, c3])) := by
  unfold decodeText decodeCombine
  simp only [decodeExpand_four, responsesTo_cons, respond_decl4, responsesTo_nil]
  rw [if_neg (by simp)]
  cases he : rspErr (decoderResponse true [c0, c1, c2, c3]) <;> simp [he, wholeCause]

end Sys2Proof.Machine
end

