-- ==== Sys2Proof/Tests/Slice0.lean ====
section
/-! SUPPORT. The model's own tests: expected values are from the spec's encodings and from 95_test_vectors.md. After them,
one named witness for the hypotheses of each statement that has any. -/

namespace Sys2Proof.Tests

open Sys2Proof.Machine

/-! ### Well-formedness -/

theorem test_wellFormed_refuses_dec_without_characters : (Instr.dec []).wellFormed = false := by decide

theorem test_wellFormed_refuses_dec_of_five :
    (Instr.dec [0x41#8, 0x41#8, 0x41#8, 0x41#8, 0x41#8]).wellFormed = false := by decide

theorem test_wellFormed_refuses_decl_without_characters : (Instr.decl []).wellFormed = false := by decide

theorem test_wellFormed_refuses_decl_of_five :
    (Instr.decl [0x41#8, 0x41#8, 0x41#8, 0x41#8, 0x41#8]).wellFormed = false := by decide

/-! ### Decoding: words written field by field from 30_encoding.md R62 and R63 -/

/-- op 00, rsv 0000, n 01, ignored, b0, ignored. -/
theorem test_decode_enc1 :
    decode (0b00#2 ++ 0b0000#4 ++ 0b01#2 ++ 0xA5#8 ++ 0xFB#8 ++ 0x5A#8 ++ 0xC3#8) = .ok (.enc1 0xFB#8) := by decide

theorem test_decode_enc2 :
    decode (0b00#2 ++ 0b0000#4 ++ 0b10#2 ++ 0xA5#8 ++ 0xFB#8 ++ 0x5A#8 ++ 0xC3#8) = .ok (.enc2 0xFB#8 0x5A#8) := by
  decide

theorem test_decode_enc3 :
    decode (0b00#2 ++ 0b0000#4 ++ 0b11#2 ++ 0xA5#8 ++ 0xFB#8 ++ 0x5A#8 ++ 0xC3#8) =
      .ok (.enc3 0xFB#8 0x5A#8 0xC3#8) := by decide

/-- op 01, 00, L 0, 0, mm 10, c0, c1, c2, ignored. -/
theorem test_decode_dec :
    decode (0b01#2 ++ 0b00#2 ++ 0b0#1 ++ 0b0#1 ++ 0b10#2 ++ 0x33#8 ++ 0x71#8 ++ 0x32#8 ++ 0x2B#8) =
      .ok (.dec [0x33#8, 0x71#8, 0x32#8]) := by decide

/-- op 01, 00, L 1, 0, mm 00, c0, ignored. -/
theorem test_decode_decl :
    decode (0b01#2 ++ 0b00#2 ++ 0b1#1 ++ 0b0#1 ++ 0b00#2 ++ 0x37#8 ++ 0x77#8 ++ 0x3D#8 ++ 0x3D#8) =
      .ok (.decl [0x37#8]) := by decide

/-- Reserved words of 95_test_vectors.md L2-3. -/
theorem test_decode_reserved :
    decodeTableWord 40 0x0000000000 = none ∧ decodeTableWord 40 0x0703000000 = none ∧
    decodeTableWord 40 0x3F00000000 = none ∧ decodeTableWord 40 0x4454574675 = none := by decide

/-! ### Commands: 95_test_vectors.md L2-1 and L2-2 -/

theorem test_enc3_slices_62 : respond 0x0300FBEFBE#40 = 0x032B2B2B2B#40 := by decide

theorem test_enc3_mixed : respond 0x030014FB9C#40 = 0x0346507563#40 := by decide

theorem test_enc2_mixed : respond 0x020014FB00#40 = 0x024650733D#40 := by decide

theorem test_enc2_ignored_bits : respond 0x02AA4D61FF#40 = 0x025457453D#40 := by decide

theorem test_enc1_ones : respond 0x0100FF0000#40 = 0x012F773D3D#40 := by decide

theorem test_enc1_ignored_bits : respond 0x01FF4DFFFF#40 = 0x0154513D3D#40 := by decide

theorem test_dec_group : respond 0x433371322B#40 = 0x0300DEADBE#40 := by decide

theorem test_dec_padding : respond 0x435457453D#40 = 0xA000000000#40 := by decide

theorem test_decl_bad_character_before_leftover_bits : respond 0x4B2A523D3D#40 = 0xB000000000#40 := by decide

theorem test_decl_two_bytes : respond 0x4B4650733D#40 = 0x020014FB00#40 := by decide

theorem test_reserved_response : respond 0x044D616E00#40 = 0xC000000000#40 := by decide

/-! ### Cycles -/

/-- The state after reset with words for the host to offer. -/
def loaded (words : List Word) : State := { State.reset with program := words }

/-- The fields of an outcome's next state that the host sees at transaction level. -/
def observed : Host.Outcome State Fault Refusal → Option (List Word × List Event)
  | .next s => some (s.q, s.trace)
  | .fault _ => none
  | .refused _ => none

/-- From reset the first cycle accepts the offered word and the second delivers its response (10_state.md R29; log 2). -/
theorem test_program_from_reset :
    observed (Host.Core.run core 1 (loaded [0x4354574675#40])) = some ([0x4354574675#40], [.accept 0x4354574675#40]) ∧
    observed (Host.Core.run core 2 (loaded [0x4354574675#40])) =
      some ([], [.accept 0x4354574675#40, .respond 0x03004D616E#40]) := by decide

/-- The word placed by `withFetchWord` is answered in the very next cycle. -/
theorem test_withFetchWord :
    observed (step (State.reset.withFetchWord 40 0x01004D0000)) = some ([], [.respond 0x0154513D3D#40]) := by decide

/-- One reset cycle with a command in flight and a response offered (70_reset_and_hazards.md R170). -/
theorem test_reset_cycle :
    observed (step { State.reset with
      q := [0x4354574675#40], rspValid := true, rspData := 0x03004D616E#40
      moves := [⟨true, true, true, true, true⟩] }) = some ([], [.reset]) := by decide

/-! ### Witnesses: states -/

/-- A command is in the queue, its response is held, another command is offered, and the host neither takes nor does the
block accept in the coming cycle. -/
def stalled : State := { State.reset with
  q := [0x4354574675#40], rspValid := true, rspData := 0x03004D616E#40
  cmdValid := true, cmdData := 0x01004D0000#40
  trace := [.accept 0x4354574675#40], moves := [⟨false, false, false, false, false⟩] }

theorem stalled_inv : stalled.Inv where
  depth := qdepth_pos
  held := fun _ => by decide
  quiet := by decide
  behaviour := by
    simp [stalled, replay, Event.apply, qdepth_pos]

/-- The same, with a reset cycle to come. -/
def resetting : State := { stalled with moves := [⟨true, false, true, true, true⟩] }

theorem resetting_inv : resetting.Inv := ⟨stalled_inv.depth, stalled_inv.held, stalled_inv.quiet, stalled_inv.behaviour⟩

/-- A full queue. -/
def full : State := { State.reset with q := List.replicate Config.qdepth 0x01004D0000#40 }

theorem reset_inv : State.reset.Inv := ⟨Nat.zero_le _, by decide, by decide, rfl⟩

theorem loaded_inv (words : List Word) : (loaded words).Inv :=
  ⟨Nat.zero_le _, by simp [loaded, State.reset], by simp [loaded, State.reset], rfl⟩

theorem loaded_noReset (words : List Word) : (loaded words).noReset := ⟨by simp [loaded, State.reset], rfl⟩

theorem loaded_hostGoesOn (words : List Word) : (loaded words).hostGoesOn := ⟨rfl, rfl⟩

/-- A queue filled by acceptances, an offer that waits, and a host with the given `rsp_ready` for ever. -/
def crowded (take : Bool) : State := { State.reset with
  q := List.replicate Config.qdepth 0x01004D0000#40, trace := List.replicate Config.qdepth (.accept 0x01004D0000#40)
  cmdValid := true, cmdData := 0x03004D616E#40, habit := ⟨false, true, take⟩ }

theorem crowded_inv (take : Bool) : (crowded take).Inv where
  depth := by simp [crowded]
  held := by simp [crowded, State.reset]
  quiet := by simp [crowded, State.reset]
  behaviour := by simpa [crowded] using replay_accepts 0x01004D0000#40 Config.qdepth [] (by simp)

theorem crowded_noReset (take : Bool) : (crowded take).noReset := ⟨by simp [crowded, State.reset], rfl⟩

/-! ### Witnesses: encoding -/

theorem witness_DecodeOfEncodeGivesTheCommandBack :
    (Instr.enc1 0xFF#8).wellFormed = true ∧ (Instr.enc2 0x00#8 0xFF#8).wellFormed = true ∧
    (Instr.enc3 0x4D#8 0x61#8 0x6E#8).wellFormed = true ∧ (Instr.dec [0x54#8]).wellFormed = true ∧
    (Instr.dec [0x54#8, 0x57#8, 0x46#8, 0x75#8]).wellFormed = true ∧ (Instr.decl [0x54#8]).wellFormed = true ∧
    (Instr.decl [0x54#8, 0x51#8, 0x3D#8, 0x3D#8]).wellFormed = true := by decide

theorem witness_EncodeOfDecodeZeroFillsIgnoredBits : decode 0x4954574675#40 = .ok (.decl [0x54#8, 0x57#8]) := by decide

/-- One command of each class and one reserved word, for the clauses about a class. -/
theorem witness_ControlByteAloneDecidesTheClass :
    classify 0x01004D0000#40 = .enc1 ∧ classify 0x02004D6100#40 = .enc2 ∧ classify 0x03004D616E#40 = .enc3 ∧
    classify 0x4054574675#40 = .dec ∧ classify 0x4B54574675#40 = .decl ∧ classify 0x4C54574675#40 = .rsvd := by decide

theorem witness_IgnoredBitsHaveNoEffectOnTheResponse :
    (controlByte 0x01004D0000#40 = controlByte 0x01FF4DFFFF#40 ∧ controlByte 0x01004D0000#40 = 0x01#8 ∧
      encoderByte 0x01004D0000#40 0 = encoderByte 0x01FF4DFFFF#40 0) ∧
    (controlByte 0x02004D6100#40 = controlByte 0x02AA4D61FF#40 ∧ controlByte 0x02004D6100#40 = 0x02#8 ∧
      ∀ j < 2, encoderByte 0x02004D6100#40 j = encoderByte 0x02AA4D61FF#40 j) ∧
    (controlByte 0x03004D616E#40 = controlByte 0x03FF4D616E#40 ∧ controlByte 0x03004D616E#40 = 0x03#8 ∧
      ∀ j < 3, encoderByte 0x03004D616E#40 j = encoderByte 0x03FF4D616E#40 j) ∧
    (controlByte 0x4254574600#40 = controlByte 0x4254574675#40 ∧ classify 0x4254574600#40 = .dec ∧
      ∀ k < suppliedCount 0x4254574600#40, decoderChar 0x4254574600#40 k = decoderChar 0x4254574675#40 k) ∧
    (controlByte 0x4854000000#40 = controlByte 0x4854574675#40 ∧ classify 0x4854000000#40 = .decl ∧
      ∀ k < suppliedCount 0x4854000000#40, decoderChar 0x4854000000#40 k = decoderChar 0x4854574675#40 k) := by decide

theorem witness_InvEntryCountsAndBadCodes : 0x80 ≤ (0x80#8).toNat ∧ 0x80 ≤ (0xFF#8).toNat := by decide

theorem witness_ExactlyElevenControlBytesAreLegal : classifyControl 0x4B#8 ≠ .rsvd ∧ classifyControl 0x01#8 ≠ .rsvd := by
  decide

theorem witness_FwdEntriesAreDistinctAndNeverPadding : fwd 63#6 = fwd 63#6 := rfl

/-- One legal and one reserved word, for the clauses about a decoded word and about a class. -/
theorem witness_DisassembledLineAssemblesToTheZeroFilledWord :
    decode 0x01FF4DFFFF#40 = .ok (.enc1 0x4D#8) ∧ classify 0x8354574675#40 = .rsvd := by decide

/-- The words of two classes print as 30_encoding.md R70 and R71 say, ignored bits dropped. -/
theorem test_disassemble :
    disassemble 0x01FF4DFFFF#40 = "ENC1 0x4D".toList ∧ disassemble 0x8354574675#40 = ".cmd 0x8354574675".toList := by
  decide

/-- 95_test_vectors.md L2-4 (`ENCODE "Ma"`) and P3 (`ENCODE [0x4D,0x61,0x6E,0x4D]`). -/
theorem test_encode_line_forms :
    assembleLine "ENCODE \"Ma\"".toList = some [0x02004D6100#40] ∧
    assembleLine "ENCODE [0x4D,0x61,0x6E,0x4D]".toList = some [0x03004D616E#40, 0x01004D0000#40] := by decide

/-! ### Witnesses: commands -/

theorem witness_Enc3EncodesAFullGroup : 0x03FF4D616E#40 &&& 0xFF00000000#40 = 0x0300000000#40 := by decide

theorem witness_Enc2EncodesATwoByteGroup : 0x02AA4D61FF#40 &&& 0xFF00000000#40 = 0x0200000000#40 := by decide

theorem witness_Enc1EncodesAOneByteGroup : 0x01FF4DFFFF#40 &&& 0xFF00000000#40 = 0x0100000000#40 := by decide

theorem witness_EncoderOutputIsAlphabetWithTrailingPadding :
    ∃ (i : Instr) (n : Nat), (∃ b0, i = .enc1 b0) ∧ n = 1 ∨ (∃ b0 b1, i = .enc2 b0 b1) ∧ n = 2 ∨
      (∃ b0 b1 b2, i = .enc3 b0 b1 b2) ∧ n = 3 :=
  ⟨.enc2 0x4D#8 0x61#8, 2, .inr (.inl ⟨⟨_, _, rfl⟩, rfl⟩)⟩

/-- The premises of the clauses of DEC in their order, each at an edge of its range. -/
theorem witness_DecDecodesANonFinalGroup :
    [0x54#8, 0x57#8, 0x46#8].length ≠ 4 ∧
    0x3D#8 ∈ [0x54#8, 0x57#8, 0x45#8, 0x3D#8] ∧
    (0x3D#8 ∉ [0x54#8, 0x57#8, 0x20#8, 0x75#8] ∧ ∃ c ∈ [0x54#8, 0x57#8, 0x20#8, 0x75#8], inv c = .bad) ∧
    (inv 0x41#8 = .idx 0#6 ∧ inv 0x2F#8 = .idx 63#6 ∧ inv 0x5A#8 = .idx 25#6 ∧ inv 0x61#8 = .idx 26#6) ∧
    0x4354574675#40 &&& 0xFC00000000#40 = 0x4000000000#40 := by decide

/-- The premises of the clauses of DECL in their order. -/
theorem witness_DeclDecodesTheFinalGroup :
    [0x54#8].length ≠ 4 ∧
    (0x41#8 == 0x3D#8, 0x41#8 == 0x3D#8, 0x3D#8 == 0x3D#8, 0x41#8 == 0x3D#8) ∉
      [(false, false, false, false), (false, false, false, true), (false, false, true, true)] ∧
    (0x3D#8 ∉ [0x54#8, 0x57#8, 0xC3#8, 0x75#8] ∧ ∃ c ∈ [0x54#8, 0x57#8, 0xC3#8, 0x75#8], inv c = .bad) ∧
    (0x3D#8 ∉ [0x54#8, 0x2A#8, 0x45#8] ∧ ∃ c ∈ [0x54#8, 0x2A#8, 0x45#8], inv c = .bad) ∧
    (0x3D#8 ∉ [0x2A#8, 0x52#8] ∧ ∃ c ∈ [0x2A#8, 0x52#8], inv c = .bad) ∧
    (inv 0x54#8 = .idx 19#6 ∧ inv 0x57#8 = .idx 22#6 ∧ inv 0x46#8 = .idx 5#6 ∧ inv 0x75#8 = .idx 46#6) ∧
    (inv 0x51#8 = .idx 16#6 ∧ inv 0x45#8 = .idx 4#6) ∧
    0x4954570000#40 &&& 0xFC00000000#40 = 0x4800000000#40 ∧
    (0x80 ≤ (0xC3#8).toNat ∧ 0x3D#8 ∉ [0x41#8, 0x41#8, 0x41#8]) := by decide

theorem witness_DecoderSuccessHasAZeroTail :
    ∃ (text : List Byte) (i : Instr) (s t : State), (i = .dec text ∨ i = .decl text) ∧ exec i s = .next t ∧
      rspErr t.rspData = false :=
  ⟨[0x54#8, 0x51#8, 0x3D#8, 0x3D#8], .decl [0x54#8, 0x51#8, 0x3D#8, 0x3D#8], State.reset, _, .inr rfl, rfl, by decide⟩

theorem witness_NeverAcceptedCharactersGiveChar :
    (0x2D#8 ∈ [0x20#8, 0x09#8, 0x0D#8, 0x0A#8, 0x2D#8, 0x5F#8] ∧ 0x80 ≤ (0x80#8).toNat) ∧
    (0x3D#8 ∉ [0x2D#8, 0x5F#8, 0x41#8, 0x41#8] ∧ 0x2D#8 ∈ [0x2D#8, 0x5F#8, 0x41#8, 0x41#8]) ∧
    (0x3D#8 ∉ [0x41#8, 0x41#8, 0x80#8] ∧ 0x80#8 ∈ [0x41#8, 0x41#8, 0x80#8]) ∧
    (0x3D#8 ∉ [0x41#8, 0x2D#8] ∧ 0x2D#8 ∈ [0x41#8, 0x2D#8]) := by decide

theorem witness_ResponseFieldsOfEveryWord :
    (rspErr (respond 0x4B54513D3D#40) = false ∧ classify 0x4B54513D3D#40 = .decl) ∧
    (rspErr (respond 0x4354574675#40) = false ∧ classify 0x4354574675#40 = .dec) ∧
    (rspErr (respond 0x01004D0000#40) = false ∧ classify 0x01004D0000#40 = .enc1) ∧
    (rspErr (respond 0x02004D6100#40) = false ∧ classify 0x02004D6100#40 = .enc2) ∧
    (rspErr (respond 0x03004D616E#40) = false ∧ classify 0x03004D616E#40 = .enc3) ∧
    rspErr (respond 0x4254574600#40) = true := by decide

theorem witness_ReservedWordsGetTheCmdResponse :
    classify 0x0000000000#40 = .rsvd ∧ classify 0x0400000000#40 = .rsvd ∧ classify 0x3F00000000#40 = .rsvd ∧
    classify 0x4400000000#40 = .rsvd ∧ classify 0x4C00000000#40 = .rsvd ∧ classify 0xFF00000000#40 = .rsvd := by decide

theorem witness_OnlyDecoderCommandsReportMalformedInput :
    (rspErr (respond 0x4B2A413D41#40) = true ∧ rspCause (respond 0x4B2A413D41#40) ∈ [1#3, 2#3, 3#3]) ∧
    classify 0x0100FF0000#40 = .enc1 := by decide

/-! ### Witnesses: cycles and runs -/

theorem witness_StepRunsTheDecodedCommand :
    (loaded []).nextMove.rst = false ∧ (loaded []).nextMove.answer = true ∧
    ({ loaded [] with q := [0x4354574675#40, 0x8354574675#40] } : State).rspValid = false ∧
    decode 0x4354574675#40 = .ok (.dec [0x54#8, 0x57#8, 0x46#8, 0x75#8]) ∧ decode 0x8354574675#40 = .error .op := by
  decide

theorem witness_FetchedTableWordRunsNext : decodeTableWord 40 0x02004D6100 = some (.enc2 0x4D#8 0x61#8) := by decide

theorem witness_ResetCycleDropsEverythingInFlight :
    resetting.nextMove.rst = true ∧ resetting.q ≠ [] ∧ resetting.Inv ∧
      ∃ t u, step resetting = .next t ∧ State.Reaches 1 t u :=
  ⟨rfl, by decide, resetting_inv, _, _, step_eq_settled _, reaches_succ.2 ⟨_, step_eq_settled _, reaches_zero.2 rfl⟩⟩

theorem witness_NoResponseOnTheFirstEdgeAfterReset :
    resetting.nextMove.rst = true ∧ ∃ t u, step resetting = .next t ∧ step t = .next u :=
  ⟨rfl, _, _, step_eq_settled _, step_eq_settled _⟩

theorem witness_TransfersHappenExactlyOnTheHandshakes :
    ({ stalled with rst := true } : State).rst = true ∧ stalled.rst = false ∧
    ({ stalled with rspReady := true } : State).rspReady = true := by decide

theorem witness_UntransferredOffersAreHeldUnchanged :
    stalled.nextMove.rst = false ∧ stalled.rspValid = true ∧ stalled.nextMove.take = false ∧ stalled.cmdValid = true ∧
      ∃ t, step stalled = .next t ∧ acceptedOf t.trace = acceptedOf stalled.trace := by
  refine ⟨rfl, rfl, rfl, rfl, _, step_eq_settled _, ?_⟩
  have hr : stalled.settled.cmdReady = false := settled_cmdReady (s := stalled) rfl
  rw [edge_of_not_reset (settled_rst stalled), accept_trace, deliver_cmdReady, hr]
  simp

/-- A full queue, and one command of room with an offer and a willing block. -/
theorem witness_FullQueueHoldsBackAccept :
    (full.nextMove.rst = false ∧ Config.qdepth ≤ full.q.length ∧ ∃ t, step full = .next t) ∧
    (let s : State := { State.reset with cmdValid := true, q := List.replicate (Config.qdepth - 1) 0x01004D0000#40 }
     s.nextMove.rst = false ∧ s.q.length < Config.qdepth ∧ s.cmdValid = true ∧ s.nextMove.ready = true ∧
       ∃ t, step s = .next t) := by
  have h := qdepth_pos
  refine ⟨⟨rfl, by simp [full], _, step_eq_settled _⟩, rfl, ?_, rfl, rfl, _, step_eq_settled _⟩
  simp only [List.length_replicate]
  omega

theorem witness_EveryCycleKeepsTheInvariant : stalled.Inv ∧ ∃ t, step stalled = .next t :=
  ⟨stalled_inv, _, step_eq_settled _⟩

/-- Reset and no reset: both cases of the statement. -/
theorem witness_EveryCycleRefinesTheTransactionModel :
    (stalled.Inv ∧ ∃ t, step stalled = .next t) ∧ resetting.Inv ∧ ∃ t, step resetting = .next t :=
  ⟨⟨stalled_inv, _, step_eq_settled _⟩, resetting_inv, _, step_eq_settled _⟩

theorem witness_ResponsesMatchAcceptedCommandsInOrder : stalled.Inv ∧ stalled.q ≠ [] := ⟨stalled_inv, by decide⟩

/-- Both sides: commands done, and one in flight. -/
theorem witness_EqualCountsMeanEveryCommandIsDone :
    (State.reset.Inv ∧ State.reset.q = []) ∧ stalled.Inv ∧ stalled.q ≠ [] := ⟨⟨reset_inv, rfl⟩, stalled_inv, by decide⟩

theorem witness_ResponseSequenceDoesNotDependOnTheSchedule :
    stalled.Inv ∧ stalled.noReset ∧ ∃ t, State.Reaches 1 stalled t :=
  ⟨stalled_inv, ⟨by simp [stalled], rfl⟩, _, reaches_succ.2 ⟨_, step_eq_settled _, reaches_zero.2 rfl⟩⟩

/-- The head is due though its response is not offered yet, and an offer waits at an empty queue. -/
theorem witness_PendingWorkEventuallyTransfers :
    (let s : State := { stalled with rspValid := false, moves := [⟨false, false, true, false, false⟩] }
     s.Inv ∧ s.hostTakes ∧ s.q = [0x4354574675#40]) ∧
    (let s : State := { State.reset with cmdValid := true, moves := [⟨false, false, false, false, false⟩] }
     s.noReset ∧ s.q.length < Config.qdepth ∧ s.cmdValid = true) := by
  refine ⟨⟨⟨stalled_inv.depth, by simp, fun _ => rfl, stalled_inv.behaviour⟩, ?_, rfl⟩, ?_, qdepth_pos, rfl⟩
  · exact ⟨⟨by simp, rfl⟩, by simp, rfl⟩
  · exact ⟨by simp, rfl⟩

theorem witness_EveryCommandIsAnsweredInOrder :
    (loaded [0x03004D616E#40, 0x4B54513D3D#40]).Inv ∧ (loaded [0x03004D616E#40, 0x4B54513D3D#40]).noReset ∧
      (loaded [0x03004D616E#40, 0x4B54513D3D#40]).hostGoesOn ∧
      (loaded [0x03004D616E#40, 0x4B54513D3D#40]).outstanding ≠ [] :=
  ⟨loaded_inv _, loaded_noReset _, loaded_hostGoesOn _, by decide⟩

theorem witness_InterleavedRequestersGetTheirOwnResponses :
    let tagged : List (Nat × Word) := [(0, 0x03004D616E#40), (1, 0x4B54513D3D#40), (0, 0x01004D0000#40)]
    (loaded (tagged.map (fun p => p.2))).Inv ∧ (loaded (tagged.map (fun p => p.2))).noReset ∧
      (loaded (tagged.map (fun p => p.2))).hostGoesOn ∧
      (loaded (tagged.map (fun p => p.2))).outstanding = tagged.map (fun p => p.2) :=
  ⟨loaded_inv _, loaded_noReset _, loaded_hostGoesOn _, rfl⟩

theorem witness_BackToBackCommandsHaveNoHazard :
    let s : State := { stalled with q := [0x4354574675#40, 0x01004D0000#40], moves := [] }
    s.moves = [] ∧ s.habit = Habit.eager ∧ s.q = 0x4354574675#40 :: 0x01004D0000#40 :: [] ∧ s.rspValid = true ∧
      s.rspData = respond 0x4354574675#40 := by
  exact ⟨rfl, rfl, rfl, rfl, by decide⟩

/-! ### Witnesses: whole sequences -/

theorem witness_EncodeExpandsGroupByGroup :
    0 < [0x4D#8, 0x61#8, 0x6E#8].length / 3 ∧ [0x4D#8, 0x61#8].length % 3 = 2 ∧ [0x4D#8].length % 3 = 1 := by decide

theorem witness_DecodeExpandsGroupByGroup :
    let t : List Byte := [0x33#8, 0x71#8, 0x32#8, 0x2B#8, 0x37#8, 0x77#8]
    0 + 1 < (t.length + 3) / 4 ∧ t ≠ [] := by decide

/-- A full group and then a final group with leftover bits that are not zero. -/
def secondFails : List Byte := [0x54#8, 0x57#8, 0x46#8, 0x75#8, 0x54#8, 0x52#8, 0x3D#8, 0x3D#8]

theorem test_second_group_fails :
    responsesTo (decodeExpand secondFails) = [0x03004D616E#40] ++ 0xA000000000#40 :: [] := by
  simp only [secondFails, decodeExpand_five, decodeExpand_four, responsesTo_cons, responsesTo_nil, respond_dec4,
    respond_decl4]
  decide

/-- A length that is no multiple of 4, a text whose second group fails, and a text in which none does. -/
theorem witness_DecodeIsAllOrNothingWithTheFirstCause :
    [0x33#8, 0x71#8, 0x32#8, 0x2B#8, 0x37#8, 0x77#8].length % 4 ≠ 0 ∧
    (secondFails.length % 4 = 0 ∧
      responsesTo (decodeExpand secondFails) = [0x03004D616E#40] ++ 0xA000000000#40 :: [] ∧
      (∀ x ∈ [0x03004D616E#40], rspErr x = false) ∧ rspErr 0xA000000000#40 = true) ∧
    (∀ r ∈ responsesTo (decodeExpand [0x54#8, 0x51#8, 0x3D#8, 0x3D#8]), rspErr r = false) := by
  refine ⟨by decide, ⟨by decide, test_second_group_fails,
    fun x hx => by rw [List.mem_singleton.1 hx]; decide, by decide⟩, fun r hr => ?_⟩
  simp only [decodeExpand_four, responsesTo_cons, responsesTo_nil, respond_decl4, List.mem_singleton] at hr
  subst hr
  decide

/-- A text that decodes: 95_test_vectors.md L2-2, `TQ==`. -/
theorem witness_DecodeAcceptsExactlyTheEncodedTexts :
    decodeText [0x54#8, 0x51#8, 0x3D#8, 0x3D#8] = .ok [0x4D#8] := by
  rw [decodeText_four, if_neg (by decide)]
  exact congrArg Except.ok (by decide)

/-- Texts for the clauses (a) to (f), each at an edge. -/
theorem witness_WholeTextRejectionsAndAcceptance :
    [0x41#8].length % 4 ≠ 0 ∧
    (0 + 2 < [0x3D#8, 0x41#8, 0x41#8, 0x41#8].length ∧ [0x3D#8, 0x41#8, 0x41#8, 0x41#8][0]? = some 0x3D#8) ∧
    [0x54#8, 0x3D#8, 0x3D#8, 0x3D#8] = [0x54#8] ++ [0x3D#8, 0x3D#8, 0x3D#8] ∧
    ([0x54#8, 0x57#8, 0x46#8, 0x3D#8] = [0x54#8, 0x57#8] ++ [0x46#8, 0x3D#8] ∧ inv 0x46#8 = .idx 5#6 ∧
      (5#6).extractLsb' 0 2 ≠ 0#2) ∧
    ([0x54#8, 0x52#8, 0x3D#8, 0x3D#8] = [0x54#8] ++ [0x52#8, 0x3D#8, 0x3D#8] ∧ inv 0x52#8 = .idx 17#6 ∧
      (17#6).extractLsb' 0 4 ≠ 0#4) ∧
    (0x2A#8 ∈ [0x54#8, 0x57#8, 0x2A#8, 0x75#8] ∧ inv 0x2A#8 = .bad) := by decide

/-- The premises of clause (f) for two, one and no `=`. -/
theorem witness_WholeTextAcceptance :
    (inv 0x54#8 = .idx 19#6 ∧ inv 0x51#8 = .idx 16#6 ∧ (16#6).extractLsb' 0 4 = 0#4 ∧
      [0x54#8, 0x51#8, 0x3D#8, 0x3D#8] = [0x54#8, 0x51#8] ++ List.replicate 2 0x3D#8 ∧
      [0x54#8, 0x51#8, 0x3D#8, 0x3D#8].length % 4 = 0 ∧ [0x54#8, 0x51#8].getLast? = some 0x51#8) ∧
    (inv 0x57#8 = .idx 22#6 ∧ inv 0x45#8 = .idx 4#6 ∧ (4#6).extractLsb' 0 2 = 0#2 ∧
      [0x54#8, 0x57#8, 0x45#8, 0x3D#8] = [0x54#8, 0x57#8, 0x45#8] ++ List.replicate 1 0x3D#8 ∧
      [0x54#8, 0x57#8, 0x45#8].getLast? = some 0x45#8) ∧
    (inv 0x46#8 = .idx 5#6 ∧ inv 0x75#8 = .idx 46#6 ∧
      [0x54#8, 0x57#8, 0x46#8, 0x75#8] = [0x54#8, 0x57#8, 0x46#8, 0x75#8] ++ List.replicate 0 0x3D#8) := by decide

theorem witness_CharactersWithNoByteCodeFail :
    256 ≤ (Char.ofNat 0x20AC).toNat ∧ 256 ≤ (Char.ofNat 0x100).toNat ∧ (Char.ofNat 0xFF).toNat < 256 ∧
    Char.ofNat 0x20AC ∈ ['T', 'W', Char.ofNat 0x20AC, 'u'] := by decide

theorem witness_PseudoInstructionsRunOnTheBlock :
    (loaded ((encodeExpand [0x4D#8, 0x61#8]).map encode)).Inv ∧
    (loaded ((encodeExpand [0x4D#8, 0x61#8]).map encode)).noReset ∧
    (loaded ((encodeExpand [0x4D#8, 0x61#8]).map encode)).hostGoesOn ∧
    (loaded ((encodeExpand [0x4D#8, 0x61#8]).map encode)).outstanding = (encodeExpand [0x4D#8, 0x61#8]).map encode ∧
    (loaded ((decodeExpand [0x54#8, 0x51#8]).map encode)).Inv ∧
    (loaded ((decodeExpand [0x54#8, 0x51#8]).map encode)).noReset ∧
    (loaded ((decodeExpand [0x54#8, 0x51#8]).map encode)).hostGoesOn ∧
    (loaded ((decodeExpand [0x54#8, 0x51#8]).map encode)).outstanding = (decodeExpand [0x54#8, 0x51#8]).map encode :=
  ⟨loaded_inv _, loaded_noReset _, loaded_hostGoesOn _, rfl, loaded_inv _, loaded_noReset _, loaded_hostGoesOn _, rfl⟩

/-! ### Witnesses: back-pressure without end -/

theorem witness_HostThatNeverTakesStallsTheBlock :
    (crowded false).noReset ∧ (crowded false).hostNeverTakes ∧ (crowded false).Inv ∧
      Config.qdepth ≤ (crowded false).q.length ∧ (crowded false).cmdValid = true ∧
      ∃ t, State.Reaches 1 (crowded false) t :=
  ⟨crowded_noReset _, ⟨by simp [crowded, State.reset], rfl⟩, crowded_inv _, by simp [crowded], rfl, _,
    reaches_succ.2 ⟨_, step_eq_settled _, reaches_zero.2 rfl⟩⟩

theorem witness_WaitAtAFullQueueEndsWithAResponse :
    (crowded true).Inv ∧ (crowded true).hostTakes ∧ Config.qdepth ≤ (crowded true).q.length ∧
      (crowded true).cmdValid = true ∧ ∃ t, State.Reaches 1 (crowded true) t :=
  ⟨crowded_inv _, ⟨crowded_noReset _, by simp [crowded, State.reset], rfl⟩, by simp [crowded], rfl, _,
    reaches_succ.2 ⟨_, step_eq_settled _, reaches_zero.2 rfl⟩⟩

end Sys2Proof.Tests
end

section
/-! PROOF. Every cycle is a run of the transaction model of 10_state.md R29: the transactions of the edge, one transfer
at a time, and the simulation put together from them. -/

namespace Sys2Proof.Machine

/-- A reset cycle is the one transaction Reset. -/
theorem edge_replay_of_reset {s : State} (hr : s.rst = true) :
    s.edge.trace = s.trace ++ [.reset] ∧ replay Config.qdepth s.q [.reset] = some s.edge.q := by
  rw [edge_of_reset hr]
  exact ⟨rfl, rfl⟩

/-- The response transfer at the edge is no transaction, or the Respond of the queue's head. -/
theorem deliver_replay {s : State} (hheld : s.rspValid = true → s.q.head?.map respond = some s.rspData) :
    ∃ rs, s.deliver.trace = s.trace ++ rs ∧ replay Config.qdepth s.q rs = some s.deliver.q ∧
      (rs = [] ∨ ∃ h rest, s.q = h :: rest ∧ rs = [.respond (respond h)]) := by
  obtain ⟨heq, -⟩ | ⟨-, -, h, rest, hq, hq', -, ht⟩ := deliver_cases hheld
  · exact ⟨[], by simp [heq], by simp [heq, replay], .inl rfl⟩
  · exact ⟨_, ht, by simp [hq, hq', replay, Event.apply], .inr ⟨h, rest, hq, rfl⟩⟩

/-- The command transfer at the edge is no transaction, or the Accept of the offered command, for which a block that is
ready has room. -/
theorem accept_replay {s : State} (hroom : s.cmdReady = true → s.q.length < Config.qdepth) :
    ∃ cs, s.accept.trace = s.trace ++ cs ∧ replay Config.qdepth s.q cs = some s.accept.q ∧
      (cs = [] ∨ s.cmdValid = true ∧ cs = [.accept s.cmdData]) := by
  obtain ⟨heq, -⟩ | ⟨hv, hr, hq, -, ht⟩ := accept_cases s
  · exact ⟨[], by simp [heq], by simp [heq, replay], .inl rfl⟩
  · exact ⟨_, ht, by simp [hq, hroom hr, replay, Event.apply], .inr ⟨hv, rfl⟩⟩

theorem deliver_q_length_le (s : State) : s.deliver.q.length ≤ s.q.length := by
  rw [deliver_q]
  split <;> simp

/-- A block that is ready has room in its queue (log 7). -/
theorem settled_room {s : State} (hr : s.nextMove.rst = false) (h : s.settled.cmdReady = true) :
    s.q.length < Config.qdepth := by
  simp only [settled_cmdReady hr, Bool.and_eq_true, decide_eq_true_eq] at h
  exact h.2

/-- The command on offer before the edge is the oldest the host still had. -/
theorem settled_offer {s : State} (hv : s.settled.cmdValid = true) :
    (s.pending ++ s.program).head? = some s.settled.cmdData := by
  rw [settled_cmdValid] at hv
  rw [← hostOffer_pending_program s.nextMove s, State.pending, if_pos hv, settled_cmdData]
  rfl

/-- Settles O37: the edge of a cycle is a Reset, or the Respond of `deliver_replay` and then the Accept of
`accept_replay`. -/
theorem everyCycleRefinesTheTransactionModel : Obligations.EveryCycleRefinesTheTransactionModel := by
  intro s t hs hst
  rw [step_eq_settled] at hst
  cases hst
  cases hr : s.nextMove.rst with
  | true =>
    obtain ⟨ht, hq⟩ := edge_replay_of_reset (s := s.settled) (by simp [hr])
    exact ⟨[.reset], by simpa using ht, by simpa using hq, .inl rfl⟩
  | false =>
    have hheld : s.settled.rspValid = true → s.settled.q.head?.map respond = some s.settled.rspData := by
      simpa using settled_held hs.held
    have hroom : s.settled.deliver.cmdReady = true → s.settled.deliver.q.length < Config.qdepth := fun h =>
      (deliver_q_length_le _).trans_lt (by simpa using settled_room hr (by simpa using h))
    obtain ⟨rs, hrt, hrq, hrs⟩ := deliver_replay hheld
    obtain ⟨cs, hct, hcq, hcs⟩ := accept_replay hroom
    rw [edge_of_not_reset (by simp [hr])]
    rw [settled_q] at hrq hrs
    refine ⟨rs ++ cs, ?_, ?_, .inr ⟨rs, cs, rfl, hrs, ?_⟩⟩
    · rw [hct, hrt, settled_trace, List.append_assoc]
    · rw [replay_append, hrq, Option.bind_some, hcq]
    · exact hcs.imp_right fun ⟨hv, hc⟩ => ⟨_, settled_offer (by simpa using hv), by simpa using hc⟩

end Sys2Proof.Machine
end

section
/-! PROOF. A text that holds a code which INV maps to BAD fails (42_stream.md R135, R136): such a group fails whatever
else it holds, and one failed group fails the text. -/

namespace Sys2Proof.Machine

/-- A group that holds a code outside the alphabet fails, with one cause or another (41_decoder.md R106). -/
theorem rspErr_decoderResponse_of_bad (final : Bool) {text : List Byte} (hb : ∃ c ∈ text, inv c = .bad) :
    rspErr (decoderResponse final text) = true := by
  obtain ⟨c, hc, hbad⟩ := hb
  obtain ⟨e, he, -⟩ | ⟨c0, c1, c2, c3, v0, v1, v2, v3, rfl, h0, h1, h2, h3, -⟩ |
    ⟨-, c0, c1, c2, v0, v1, v2, rfl, h0, h1, h2, -⟩ | ⟨-, c0, c1, v0, v1, rfl, h0, h1, -⟩ :=
    decoderResponse_cases final text
  · rw [he, rspErr_failWord]
  · have hgood : ∀ x ∈ [c0, c1, c2, c3], inv x ≠ .bad := by simp [h0, h1, h2, h3]
    exact absurd hbad (hgood c hc)
  · have hgood : ∀ x ∈ [c0, c1, c2, padChar], inv x ≠ .bad := by simp [h0, h1, h2]
    exact absurd hbad (hgood c hc)
  · have hgood : ∀ x ∈ [c0, c1, padChar, padChar], inv x ≠ .bad := by simp [h0, h1]
    exact absurd hbad (hgood c hc)

theorem decode_encode_decl {text : List Byte} (h1 : 1 ≤ text.length) (h4 : text.length ≤ 4) :
    decode (encode (.decl text)) = .ok (.decl text) := by
  obtain ⟨-, -, hctl, hcount⟩ := decoder_control (text.length - 1) (by omega)
  have h := decode_decl hctl (text.getD 0 0#8) (text.getD 1 0#8) (text.getD 2 0#8) (text.getD 3 0#8)
  rwa [hcount, take_textLanes text h1 h4] at h

/-- The response to the last group of a text (42_stream.md R135). -/
theorem respond_decl {text : List Byte} (h1 : 1 ≤ text.length) (h4 : text.length ≤ 4) :
    respond (encode (.decl text)) = decoderResponse true text :=
  respond_encode (decode_encode_decl h1 h4)

theorem decodeExpand_last {text : List Byte} (h1 : 1 ≤ text.length) (h4 : text.length ≤ 4) :
    decodeExpand text = [.decl text] := by
  match text with
  | [_] => rfl
  | [_, _] => rfl
  | [_, _, _] => rfl
  | [_, _, _, _] => rfl
  | _ :: _ :: _ :: _ :: _ :: _ => simp at h4; omega

/-- Some response to a text is a failure. -/
def SomeGroupFails (t : List Byte) : Prop := ∃ r ∈ responsesTo (decodeExpand t), rspErr r = true

theorem someGroupFails_last {text : List Byte} (h1 : 1 ≤ text.length) (h4 : text.length ≤ 4)
    (hb : ∃ c ∈ text, inv c = .bad) : SomeGroupFails text :=
  ⟨decoderResponse true text, by simp [decodeExpand_last h1 h4, respond_decl h1 h4],
    rspErr_decoderResponse_of_bad true hb⟩

theorem someGroupFails_five {c0 c1 c2 c3 c4 : Byte} {rest : List Byte} :
    SomeGroupFails (c0 :: c1 :: c2 :: c3 :: c4 :: rest) ↔
      rspErr (decoderResponse false [c0, c1, c2, c3]) = true ∨ SomeGroupFails (c4 :: rest) := by
  simp [SomeGroupFails, respond_dec4]

/-- A code outside the alphabet fails the group it stands in. -/
theorem someGroupFails_of_bad (t : List Byte) : (∃ c ∈ t, inv c = .bad) → SomeGroupFails t := by
  induction t using fours_induction with
  | h0 => simp
  | h1 a => exact someGroupFails_last (by simp) (by simp)
  | h2 a b => exact someGroupFails_last (by simp) (by simp)
  | h3 a b c => exact someGroupFails_last (by simp) (by simp)
  | h4 a b c d => exact someGroupFails_last (by simp) (by simp)
  | h5 a b c d e rest ih =>
    rintro ⟨x, hx, hbad⟩
    rw [show a :: b :: c :: d :: e :: rest = [a, b, c, d] ++ e :: rest from rfl, List.mem_append] at hx
    exact someGroupFails_five.2 (hx.imp (fun h => rspErr_decoderResponse_of_bad false ⟨x, h, hbad⟩)
      fun h => ih ⟨x, h, hbad⟩)

/-- One failed group fails the text (42_stream.md R136). -/
theorem decodeText_error {t : List Byte} (h : SomeGroupFails t) : ∃ e, decodeText t = .error e := by
  obtain ⟨r, hr, herr⟩ := h
  have hlen : t.length ≠ 0 := by
    intro hlen
    simp [List.length_eq_zero_iff.1 hlen] at hr
  have hany : (responsesTo (decodeExpand t)).any rspErr = true := List.any_eq_true.2 ⟨r, hr, herr⟩
  exact ⟨_, by rw [decodeText, decodeCombine, if_neg hlen, if_pos hany]⟩

/-- The code of a character that has no 8-bit code is one that INV maps to BAD (log 10). -/
theorem inv_charCode_of_wide {c : Char} (h : 256 ≤ c.toNat) : inv (charCode c) = .bad := by
  rw [charCode, if_neg (by omega)]
  decide

theorem charCode_toNat {c : Char} (h : c.toNat < 256) : (charCode c).toNat = c.toNat := by
  rw [charCode, if_pos h, BitVec.toNat_ofNat, Nat.mod_eq_of_lt h]

/-- Settles O53: the code of a character beyond 8 bits is BAD, and a BAD code fails its group and so the text. -/
theorem charactersWithNoByteCodeFail : Obligations.CharactersWithNoByteCodeFail := by
  refine ⟨fun _ => inv_charCode_of_wide, fun _ => charCode_toNat, fun t c hc hwide => ?_⟩
  exact decodeText_error (someGroupFails_of_bad _ ⟨charCode c, List.mem_map_of_mem hc, inv_charCode_of_wide hwide⟩)

end Sys2Proof.Machine
end

section
/-! PROOF. What transfers at a rising edge, port by port (10_state.md R26, R170), and the state right after reset. -/

namespace Sys2Proof.Machine

section
variable {s : State} (hr : s.rst = false)
include hr

theorem edge_trace_of_not_reset :
    s.edge.trace = s.trace ++ (if s.rspValid = true ∧ s.rspReady = true then [Event.respond s.rspData] else []) ++
      (if s.cmdValid = true ∧ s.cmdReady = true then [Event.accept s.cmdData] else []) := by
  rw [edge_of_not_reset hr, accept_trace, deliver_trace]
  simp

theorem edge_q_of_not_reset :
    s.edge.q = (if s.rspValid = true ∧ s.rspReady = true then s.q.tail else s.q) ++
      (if s.cmdValid = true ∧ s.cmdReady = true then [s.cmdData] else []) := by
  rw [edge_of_not_reset hr, accept_q, deliver_q]
  simp

theorem edge_cmdValid_of_not_reset : s.edge.cmdValid = (s.cmdValid && !s.cmdReady) := by
  rw [edge_of_not_reset hr]
  simp

theorem edge_rspValid_of_not_reset : s.edge.rspValid = (s.rspValid && !s.rspReady) := by
  rw [edge_of_not_reset hr]
  simp

/-- A response the host does not take keeps its data. -/
theorem edge_rspData_of_not_taken (ht : s.rspReady = false) : s.edge.rspData = s.rspData := by
  rw [edge_of_not_reset hr, accept_rspData, deliver_rspData_of_held ht]

theorem edge_received_of_not_reset :
    s.edge.received = s.received ++ if s.rspValid = true ∧ s.rspReady = true then [s.rspData] else [] := by
  rw [edge_of_not_reset hr, accept_received, State.received, deliver_trace, responsesOf_append]
  split <;> rfl

theorem edge_accepted_of_not_reset :
    acceptedOf s.edge.trace =
      acceptedOf s.trace ++ if s.cmdValid = true ∧ s.cmdReady = true then [s.cmdData] else [] := by
  rw [edge_of_not_reset hr, accept_trace, acceptedOf_append, deliver_accepted, deliver_cmdValid, deliver_cmdReady,
    deliver_cmdData]
  split <;> rfl

end

/-- An edge at which nothing is offered delivers nothing, in reset or not, and leaves nothing offered. -/
theorem edge_of_no_response {s : State} (h : s.rspValid = false) :
    s.edge.received = s.received ∧ s.edge.rspValid = false := by
  cases hr : s.rst with
  | true => simp [edge_of_reset hr, State.received]
  | false => simp [edge_received_of_not_reset hr, edge_rspValid_of_not_reset hr, h]

/-- Settles O33: a reset edge empties the queue, and every other edge does the two transfers. -/
theorem transfersHappenExactlyOnTheHandshakes : Obligations.TransfersHappenExactlyOnTheHandshakes := by
  intro s
  refine ⟨fun hr => by simp [edge_of_reset hr], fun hr => ?_⟩
  refine ⟨edge_trace_of_not_reset hr, edge_q_of_not_reset hr, ?_, ?_⟩
  · simp [edge_cmdValid_of_not_reset hr]
  · simp [edge_rspValid_of_not_reset hr]

/-- Settles O30: the empty history is a run of the transaction model that ends in the empty queue. -/
theorem resetStateIsEmptyAndQuiet : Obligations.ResetStateIsEmptyAndQuiet :=
  ⟨rfl, rfl, { depth := Nat.zero_le _, held := nofun, quiet := fun _ => rfl, behaviour := rfl }⟩

end Sys2Proof.Machine
end

section
/-! PROOF. How the block answers the head of its queue, and that the answer depends on the word alone (10_state.md R25,
R29, 30_encoding.md R68). -/

namespace Sys2Proof.Machine

/-- Settles O25: `respond` of the word is the response in both states. -/
theorem responseDependsOnTheWordAlone : Obligations.ResponseDependsOnTheWordAlone := by
  intro w s s'
  exact ⟨s.offerResponse (respond w), s'.offerResponse (respond w), runCommand_eq w s, runCommand_eq w s', rfl, rfl,
    runCommand_eq w _⟩

/-- With no reset, nothing held and its latency over, the head of the queue is the command that runs. -/
theorem answer_of_head {s : State} {w : Word} {rest : List Word} (hr : s.rst = false) (hv : s.rspValid = false)
    (hq : s.q = w :: rest) : answer true s = runCommand w s := by
  simp [answer, State.fetch, hr, hv, hq]

/-- Such a cycle runs the head of the queue and ends with the edge. -/
theorem step_of_head {s : State} {w : Word} {rest : List Word} (hr : s.nextMove.rst = false)
    (ha : s.nextMove.answer = true) (hv : s.rspValid = false) (hq : s.q = w :: rest) :
    step s = finishCycle (runCommand w (s.drive s.nextMove)) := by
  have hdrive : (s.drive s.nextMove).q = w :: rest := by rw [drive_q, hq]
  rw [step, ha, answer_of_head (by simp [hr]) (by simp [hv]) hdrive]

theorem runCommand_of_ok {w : Word} {i : Instr} (h : decode w = .ok i) (s : State) : runCommand w s = exec i s := by
  simp [runCommand, h]

/-- The response to a reserved word (30_encoding.md R68). -/
theorem respond_of_error {w : Word} {e : Reserved} (h : decode w = .error e) : respond w = 0xC000000000#40 := by
  simp only [respond, h]
  decide

/-- Settles O27: the head of the queue is run, by `exec` where it decodes and by the CMD response where it does not. -/
theorem stepRunsTheDecodedCommand : Obligations.StepRunsTheDecodedCommand := by
  intro s w rest hr ha hv hq
  rw [step_of_head hr ha hv hq]
  refine ⟨fun i hi => by rw [runCommand_of_ok hi], fun e he => ?_⟩
  rw [runCommand_eq, respond_of_error he]
  rfl

theorem decode_of_decodeTableWord {nbits w : Nat} {i : Instr} (h : decodeTableWord nbits w = some i) :
    decode (tableWord nbits w) = .ok i := by
  unfold decodeTableWord at h
  split at h <;> simp_all

/-- Settles O28: the placed word is the head of the queue in an eager cycle with nothing held. -/
theorem fetchedTableWordRunsNext : Obligations.FetchedTableWordRunsNext := by
  intro s nbits w i hi
  have hrun := step_of_head (s := s.withFetchWord nbits w) rfl rfl rfl rfl
  rw [hrun, runCommand_of_ok (decode_of_decodeTableWord hi)]
  rfl

end Sys2Proof.Machine
end

section
/-! PROOF. What one cycle without reset does to the offers on the two ports and to the queue (10_state.md R26, R31,
70_reset_and_hazards.md R175). -/

namespace Sys2Proof.Machine

theorem eq_edge_of_step {s t : State} (hst : step s = .next t) : t = s.settled.edge := by
  rw [step_eq_settled] at hst
  cases hst
  rfl

/-- A command on offer is on offer in the next cycle, whatever the host's move. -/
theorem settled_of_pending {s : State} (hv : s.cmdValid = true) :
    s.settled.cmdValid = true ∧ s.settled.cmdData = s.cmdData ∧ s.settled.program = s.program := by
  simp [hostOffer_of_pending _ hv, hv]

/-- A response on offer is on offer in the next cycle, whatever the block's move. -/
theorem settled_of_held {s : State} (hr : s.nextMove.rst = false) (hv : s.rspValid = true) :
    s.settled.rspValid = true ∧ s.settled.rspData = s.rspData := by
  have hd : (s.drive s.nextMove).rspValid = true := by simp [hv, hr]
  rw [State.settled, answered_of_held _ hd]
  exact ⟨hd, drive_rspData_of_held _ hv hr⟩

/-- With an empty queue and nothing held the block has nothing to offer. -/
theorem settled_of_empty {s : State} (hv : s.rspValid = false) (hq : s.q = []) : s.settled.rspValid = false := by
  by_contra h
  have := settled_held (s := s) (by simp [hv]) (by simpa using h)
  simp [hq] at this

/-- A command on offer enters the queue, or it stays on offer and the queue does not grow. -/
theorem step_of_pending {s t : State} (hst : step s = .next t) (hr : s.nextMove.rst = false) (hv : s.cmdValid = true) :
    acceptedOf t.trace = acceptedOf s.trace ++ [s.cmdData] ∨
    (acceptedOf t.trace = acceptedOf s.trace ∧ t.cmdValid = true ∧ t.cmdData = s.cmdData ∧ t.program = s.program ∧
      t.q.length ≤ s.q.length) := by
  obtain rfl := eq_edge_of_step hst
  have hrst : s.settled.rst = false := by simp [hr]
  obtain ⟨hsv, hsd, hsp⟩ := settled_of_pending hv
  rw [edge_accepted_of_not_reset hrst, edge_cmdValid_of_not_reset hrst, edge_q_of_not_reset hrst, edge_cmdData,
    edge_program, hsv, hsd, hsp, settled_trace, settled_q]
  cases s.settled.cmdReady with
  | true => exact .inl (by simp)
  | false =>
    refine .inr ⟨by simp, rfl, rfl, rfl, ?_⟩
    split <;> simp

/-- A full queue keeps the block from accepting (log 7). -/
theorem step_of_full {s t : State} (hst : step s = .next t) (hr : s.nextMove.rst = false)
    (hfull : Config.qdepth ≤ s.q.length) : acceptedOf t.trace = acceptedOf s.trace := by
  obtain rfl := eq_edge_of_step hst
  rw [edge_accepted_of_not_reset (by simp [hr]), settled_cmdReady hr, decide_eq_false (by omega)]
  simp

/-- A willing block with room takes the command on offer. -/
theorem step_of_pending_with_room {s t : State} (hst : step s = .next t) (hr : s.nextMove.rst = false)
    (hroom : s.q.length < Config.qdepth) (hv : s.cmdValid = true) (hready : s.nextMove.ready = true) :
    acceptedOf t.trace = acceptedOf s.trace ++ [s.cmdData] := by
  obtain rfl := eq_edge_of_step hst
  obtain ⟨hsv, hsd, -⟩ := settled_of_pending hv
  rw [edge_accepted_of_not_reset (by simp [hr]), settled_cmdReady hr, hready, decide_eq_true hroom, hsv, hsd]
  simp

/-- Settles O32: a reset cycle leaves an empty queue and nothing held, so the next cycle has nothing to offer. -/
theorem noResponseOnTheFirstEdgeAfterReset : Obligations.NoResponseOnTheFirstEdgeAfterReset := by
  intro s t u hr hst htu
  obtain rfl := eq_edge_of_step hst
  obtain rfl := eq_edge_of_step htu
  have hedge : s.settled.edge = s.settled.resetEdge := edge_of_reset (by simp [hr])
  obtain ⟨hfirst, hquiet⟩ := edge_of_no_response (settled_quiet hr)
  obtain ⟨hsecond, hstill⟩ := edge_of_no_response (settled_of_empty hquiet (by simp [hedge]))
  exact ⟨by rw [hsecond, settled_received, hfirst, settled_received], hstill⟩

/-- Settles O34: each offer is on its port until the edge, and an edge without its transfer leaves it there. -/
theorem untransferredOffersAreHeldUnchanged : Obligations.UntransferredOffersAreHeldUnchanged := by
  intro s t hst hr
  refine ⟨fun hv htake => ?_, fun hv hacc => ?_⟩
  · obtain rfl := eq_edge_of_step hst
    have hrst : s.settled.rst = false := by simp [hr]
    obtain ⟨hsv, hsd⟩ := settled_of_held hr hv
    rw [edge_rspValid_of_not_reset hrst, edge_rspData_of_not_taken hrst (by simp [htake]),
      edge_received_of_not_reset hrst, hsv, hsd]
    simp [htake]
  · obtain hin | ⟨-, hcv, hcd, hp, -⟩ := step_of_pending hst hr hv
    · simp [hacc] at hin
    · exact ⟨hcv, hcd, hp⟩

/-- Settles O35: whether the block is ready depends on the room in the queue before the edge. -/
theorem fullQueueHoldsBackAccept : Obligations.FullQueueHoldsBackAccept := by
  intro s t hst hr
  exact ⟨step_of_full hst hr, step_of_pending_with_room hst hr⟩

end Sys2Proof.Machine
end

section
/-! PROOF. The invariant of every cycle (10_state.md R26, R27, R29, R31), and the one sequence of responses received and
due that every run without reset keeps (R29, R51). -/

namespace Sys2Proof.Machine

/-- A response still on offer after the edge is that of the head: it was not taken, and an accepted command enters behind
the head. -/
theorem edge_held {s : State} (h : s.rspValid = true → s.q.head?.map respond = some s.rspData) :
    s.edge.rspValid = true → s.edge.q.head?.map respond = some s.edge.rspData := by
  cases hr : s.rst with
  | true => simp [edge_of_reset hr]
  | false =>
    intro hv
    simp only [edge_rspValid_of_not_reset hr, Bool.and_eq_true, Bool.not_eq_true'] at hv
    obtain ⟨hrv, hrr⟩ := hv
    have hhead := h hrv
    rw [edge_rspData_of_not_taken hr hrr, edge_q_of_not_reset hr, ← hhead, hrr]
    cases hq : s.q with
    | nil => simp [hq] at hhead
    | cons w rest => simp

/-- Settles O36: the cycle is a run of the transaction model from the queue (`everyCycleRefinesTheTransactionModel`),
which extends the history and keeps the depth; the ports are the edge's. -/
theorem everyCycleKeepsTheInvariant : Obligations.EveryCycleKeepsTheInvariant := by
  intro s t hs hst
  obtain ⟨es, htrace, hreplay, -⟩ := everyCycleRefinesTheTransactionModel s t hs hst
  obtain rfl := eq_edge_of_step hst
  refine ⟨replay_length hreplay hs.depth, ?_, ?_, ?_⟩
  · exact edge_held (by simpa using settled_held hs.held)
  · intro hr
    exact (edge_of_no_response (settled_quiet (by simpa using hr))).2
  · rw [htrace, replay_append, hs.behaviour, Option.bind_some, hreplay]

/-- What every step keeps, every run keeps. -/
theorem reaches_keeps {P : State → Prop} (hstep : ∀ s t, P s → step s = .next t → P t) {n : Nat} {s t : State}
    (hs : P s) (hn : State.Reaches n s t) : P t := by
  induction n generalizing s with
  | zero => exact reaches_zero.1 hn ▸ hs
  | succ n ih =>
    obtain ⟨u, hsu, hut⟩ := reaches_succ.1 hn
    exact ih (hstep s u hs hsu) hut

/-- The responses the host has received and those that are due to it. -/
def State.ledger (s : State) : List Word := s.received ++ s.outstanding.map respond

theorem settled_ledger (s : State) : s.settled.ledger = s.ledger := by
  rw [State.ledger, settled_received, settled_outstanding, State.ledger]

theorem edge_ledger {s : State} (hr : s.rst = false)
    (h : s.rspValid = true → s.q.head?.map respond = some s.rspData) : s.edge.ledger = s.ledger := by
  rw [State.ledger, edge_of_not_reset hr, accept_received, accept_outstanding, deliver_outstanding h, State.ledger]

theorem step_ledger {s t : State} (hs : s.Inv) (hr : s.nextMove.rst = false) (hst : step s = .next t) :
    t.ledger = s.ledger := by
  obtain rfl := eq_edge_of_step hst
  rw [edge_ledger (by simp [hr]) (by simpa using settled_held hs.held), settled_ledger]

/-- Settles O40: every cycle without reset keeps the ledger, since a response moves its head from due to received and an
acceptance only moves a command within what is outstanding. -/
theorem responseSequenceDoesNotDependOnTheSchedule : Obligations.ResponseSequenceDoesNotDependOnTheSchedule := by
  intro n s t hs hn hreach
  have hkeeps : ∀ u v, (u.Inv ∧ u.noReset ∧ u.ledger = s.ledger) → step u = .next v →
      v.Inv ∧ v.noReset ∧ v.ledger = s.ledger := by
    rintro u v ⟨hu, hnu, hl⟩ huv
    exact ⟨everyCycleKeepsTheInvariant u v hu huv, noReset_step hnu huv,
      (step_ledger hu (nextMove_of_noReset hnu) huv).trans hl⟩
  exact (reaches_keeps hkeeps ⟨hs, hn, rfl⟩ hreach).2.2

end Sys2Proof.Machine
end

section
/-! PROOF. Progress (10_state.md R30, 70_reset_and_hazards.md R175; log 1). Waiting ends with the listed moves, since the
block then acts as soon as it may: so a head is answered, an offer enters a queue with room, and a full queue gets room.
The outstanding commands run out, since every eager cycle brings one of them closer to its answer. -/

namespace Sys2Proof.Machine

/-- The state after one cycle. -/
theorem reaches_one (s : State) : State.Reaches 1 s s.settled.edge :=
  reaches_succ.2 ⟨_, step_eq_settled s, reaches_zero.2 rfl⟩

/-- What is waited for comes, if no cycle ends the wait in another way and an eager cycle brings it. -/
theorem eventually_of_waits {Wait Goal : State → Prop}
    (hstep : ∀ s t, Wait s → step s = .next t → Goal t ∨ Wait t)
    (hlast : ∀ s t, Wait s → s.moves = [] → step s = .next t → Goal t) {s : State} (hs : Wait s) :
    ∃ n t, State.Reaches n s t ∧ Goal t := by
  induction hm : s.moves generalizing s with
  | nil => exact ⟨1, _, reaches_one s, hlast s _ hs hm (step_eq_settled s)⟩
  | cons m ms ih =>
    obtain hgoal | hwait := hstep s _ hs (step_eq_settled s)
    · exact ⟨1, _, reaches_one s, hgoal⟩
    · obtain ⟨n, t, hn, ht⟩ := ih hwait (by simp [hm])
      exact ⟨1 + n, t, reaches_add (reaches_one s) hn, ht⟩

/-- After the listed moves the block accepts and answers as soon as it may (log 1). -/
theorem nextMove_of_moves_nil {s : State} (h : s.moves = []) : s.nextMove = s.habit.move := by
  simp [State.nextMove, h]

/-! ### The head of the queue -/

/-- A response taken is that of the head; with none taken the head stays. -/
theorem step_of_queued {s t : State} {h : Word} (hs : s.Inv) (hr : s.nextMove.rst = false) (hst : step s = .next t)
    (hq : s.q.head? = some h) :
    t.received = s.received ++ [respond h] ∨ (t.received = s.received ∧ t.q.head? = some h) := by
  obtain rfl := eq_edge_of_step hst
  have hrst : s.settled.rst = false := by simp [hr]
  rw [edge_received_of_not_reset hrst, edge_q_of_not_reset hrst, settled_received, settled_q]
  split
  · next htaken =>
    have hdata := settled_held hs.held htaken.1
    simp only [hq, Option.map_some, Option.some.injEq] at hdata
    exact .inl (by rw [hdata])
  · exact .inr (by simp [hq])

/-- Once its latency is over the head's response is on offer. -/
theorem settled_of_due {s : State} {h : Word} {rest : List Word} (hs : s.Inv) (hr : s.nextMove.rst = false)
    (ha : s.nextMove.answer = true) (hq : s.q = h :: rest) :
    s.settled.rspValid = true ∧ s.settled.rspData = respond h := by
  have hvalid : s.settled.rspValid = true := by
    cases hv : s.rspValid with
    | true => exact (settled_of_held hr hv).1
    | false =>
      have hdrive : (s.drive s.nextMove).q = h :: rest := by rw [drive_q, hq]
      rw [State.settled, ha, answered_of_head (by simp [hr]) (by simp [hv]) hdrive]
      rfl
  have hdata := settled_held hs.held hvalid
  simp only [hq, List.head?_cons, Option.map_some, Option.some.injEq] at hdata
  exact ⟨hvalid, hdata.symm⟩

/-- A host that takes then receives it. -/
theorem step_answers_head {s t : State} {h : Word} {rest : List Word} (hs : s.Inv) (hr : s.nextMove.rst = false)
    (ha : s.nextMove.answer = true) (htake : s.nextMove.take = true) (hq : s.q = h :: rest) (hst : step s = .next t) :
    t.received = s.received ++ [respond h] := by
  obtain rfl := eq_edge_of_step hst
  obtain ⟨hvalid, hdata⟩ := settled_of_due hs hr ha hq
  rw [edge_received_of_not_reset (by simp [hr]), hvalid, hdata, settled_rspReady, htake]
  simp

/-- `h` is the head of the queue of a block whose host takes responses and has received `rs`. -/
structure State.AwaitsAnswer (s : State) (rs : List Word) (h : Word) : Prop where
  inv : s.Inv
  takes : s.hostTakes
  head : s.q.head? = some h
  received : s.received = rs

theorem awaitsAnswer_step {s t : State} {rs : List Word} {h : Word} (hs : s.AwaitsAnswer rs h)
    (hst : step s = .next t) : t.received = rs ++ [respond h] ∨ t.AwaitsAnswer rs h := by
  obtain ⟨hinv, htakes, hhead, rfl⟩ := hs
  refine (step_of_queued hinv (nextMove_of_noReset htakes.1) hst hhead).imp_right fun ⟨hrec, hstays⟩ => ?_
  exact ⟨everyCycleKeepsTheInvariant s t hinv hst, hostTakes_step htakes hst, hstays, hrec⟩

theorem awaitsAnswer_last {s t : State} {rs : List Word} {h : Word} (hs : s.AwaitsAnswer rs h) (hm : s.moves = [])
    (hst : step s = .next t) : t.received = rs ++ [respond h] := by
  obtain ⟨hinv, htakes, hhead, rfl⟩ := hs
  obtain ⟨rest, hq⟩ := List.head?_eq_some_iff.1 hhead
  have ha : s.nextMove.answer = true := by rw [nextMove_of_moves_nil hm]; rfl
  exact step_answers_head hinv (nextMove_of_noReset htakes.1) ha (nextMove_of_hostTakes htakes) hq hst

/-! ### The command on offer -/

/-- `c` is on offer to a block that has accepted `cs` and sees no reset. -/
structure State.Offers (s : State) (cs : List Word) (c : Word) : Prop where
  noReset : s.noReset
  valid : s.cmdValid = true
  data : s.cmdData = c
  accepted : acceptedOf s.trace = cs

theorem offers_step {s t : State} {cs : List Word} {c : Word} (hs : s.Offers cs c) (hst : step s = .next t) :
    acceptedOf t.trace = cs ++ [c] ∨ (t.Offers cs c ∧ t.q.length ≤ s.q.length) := by
  obtain ⟨hn, hv, rfl, rfl⟩ := hs
  refine (step_of_pending hst (nextMove_of_noReset hn) hv).imp_right fun ⟨hacc, hcv, hcd, _, hlen⟩ => ?_
  exact ⟨⟨noReset_step hn hst, hcv, hcd, hacc⟩, hlen⟩

/-- A command on offer enters a queue that has room. -/
theorem offer_enters {s : State} {cs : List Word} {c : Word} (hs : s.Offers cs c)
    (hroom : s.q.length < Config.qdepth) : ∃ n t, State.Reaches n s t ∧ acceptedOf t.trace = cs ++ [c] := by
  refine eventually_of_waits (Wait := fun u => u.Offers cs c ∧ u.q.length < Config.qdepth) ?_ ?_ ⟨hs, hroom⟩
  · rintro u v ⟨hu, hlt⟩ huv
    exact (offers_step hu huv).imp_right fun ⟨hv, hle⟩ => ⟨hv, by omega⟩
  · rintro u v ⟨⟨hn, hv, rfl, rfl⟩, hlt⟩ hm huv
    have hready : u.nextMove.ready = true := by rw [nextMove_of_moves_nil hm]; rfl
    exact step_of_pending_with_room huv (nextMove_of_noReset hn) hlt hv hready

/-- Settles O41: a head stays the head until it is answered, an offer stays on offer in a queue with room until it is
accepted, and an eager cycle does both. -/
theorem pendingWorkEventuallyTransfers : Obligations.PendingWorkEventuallyTransfers := by
  refine ⟨fun s h rest hs htakes hq => ?_, fun s hn hroom hv => ?_⟩
  · obtain ⟨n, t, hreach, ht⟩ := eventually_of_waits (Wait := fun u => u.AwaitsAnswer s.received h)
      (fun _ _ => awaitsAnswer_step) (fun _ _ => awaitsAnswer_last) (s := s) ⟨hs, htakes, by simp [hq], rfl⟩
    exact ⟨n, t, hreach, ht ▸ List.prefix_rfl⟩
  · obtain ⟨n, t, hreach, ht⟩ := offer_enters (s := s) ⟨hn, hv, rfl, rfl⟩ hroom
    exact ⟨n, t, hreach, ht ▸ List.prefix_rfl⟩

/-! ### A full queue -/

/-- A full queue stays full until a response is received. -/
theorem full_until_response {s t : State} (hr : s.nextMove.rst = false) (hfull : Config.qdepth ≤ s.q.length)
    (hst : step s = .next t) : s.received.length < t.received.length ∨ Config.qdepth ≤ t.q.length := by
  obtain rfl := eq_edge_of_step hst
  have hrst : s.settled.rst = false := by simp [hr]
  rw [edge_received_of_not_reset hrst, edge_q_of_not_reset hrst, settled_received, settled_q]
  split
  · exact .inl (by simp)
  · exact .inr (by simp; omega)

/-- In a run from a full queue nothing is accepted before a response is received. -/
theorem full_accepts_only_after_response {n : Nat} {s t : State} (hn : s.noReset)
    (hfull : Config.qdepth ≤ s.q.length) (hreach : State.Reaches n s t) :
    acceptedOf t.trace = acceptedOf s.trace ∨ s.received.length < t.received.length := by
  induction n generalizing s with
  | zero => exact .inl (by rw [reaches_zero.1 hreach])
  | succ n ih =>
    obtain ⟨u, hsu, hut⟩ := reaches_succ.1 hreach
    have hr := nextMove_of_noReset hn
    obtain hlt | hstill := full_until_response hr hfull hsu
    · exact .inr (hlt.trans_le (received_mono_reaches hut).length_le)
    · have hlater := ih (noReset_step hn hsu) hstill hut
      rw [step_of_full hsu hr hfull] at hlater
      exact hlater.imp_right (received_mono hsu).length_le.trans_lt

/-- The head's response leaves room in a full queue, since nothing is accepted in its cycle (log 7). -/
theorem full_gets_room {s t : State} (hs : s.Inv) (hr : s.nextMove.rst = false) (ha : s.nextMove.answer = true)
    (htake : s.nextMove.take = true) (hfull : Config.qdepth ≤ s.q.length) (hst : step s = .next t) :
    t.q.length < Config.qdepth := by
  obtain rfl := eq_edge_of_step hst
  obtain ⟨h, rest, hq⟩ := List.exists_cons_of_length_pos (qdepth_pos.trans_le hfull)
  obtain ⟨hvalid, -⟩ := settled_of_due hs hr ha hq
  have hdepth := hs.depth
  rw [edge_q_of_not_reset (by simp [hr]), hvalid, settled_rspReady, htake, settled_cmdReady hr,
    decide_eq_false (by omega)]
  simp [hq] at hdepth ⊢
  omega

/-- A command on offer to a full queue stays on offer. -/
theorem offers_of_full {s t : State} {cs : List Word} {c : Word} (hs : s.Offers cs c)
    (hfull : Config.qdepth ≤ s.q.length) (hst : step s = .next t) : t.Offers cs c := by
  obtain hin | ⟨ht, -⟩ := offers_step hs hst
  · simp [step_of_full hst (nextMove_of_noReset hs.noReset) hfull, hs.accepted] at hin
  · exact ht

/-- A full queue whose host takes responses gets room for the command on offer. -/
theorem offer_gets_room {s : State} {cs : List Word} {c : Word} (hs : s.Inv) (htakes : s.hostTakes)
    (hoffers : s.Offers cs c) (hfull : Config.qdepth ≤ s.q.length) :
    ∃ n t, State.Reaches n s t ∧ t.Offers cs c ∧ t.q.length < Config.qdepth := by
  refine eventually_of_waits
    (Wait := fun u => (u.Inv ∧ u.hostTakes ∧ u.Offers cs c) ∧ Config.qdepth ≤ u.q.length) ?_ ?_
    ⟨⟨hs, htakes, hoffers⟩, hfull⟩
  · rintro u v ⟨⟨hinv, ht, ho⟩, hf⟩ huv
    have hv := offers_of_full ho hf huv
    refine (Nat.lt_or_ge v.q.length Config.qdepth).imp (fun hlt => ⟨hv, hlt⟩) fun hge => ⟨⟨?_, ?_, hv⟩, hge⟩
    · exact everyCycleKeepsTheInvariant u v hinv huv
    · exact hostTakes_step ht huv
  · rintro u v ⟨⟨hinv, ht, ho⟩, hf⟩ hm huv
    have ha : u.nextMove.answer = true := by rw [nextMove_of_moves_nil hm]; rfl
    exact ⟨offers_of_full ho hf huv,
      full_gets_room hinv (nextMove_of_noReset ht.1) ha (nextMove_of_hostTakes ht) hf huv⟩

/-- Settles O57: until a response is received the queue stays full and takes nothing; and it gets room, which the offer
then enters. -/
theorem waitAtAFullQueueEndsWithAResponse : Obligations.WaitAtAFullQueueEndsWithAResponse := by
  refine ⟨fun n s t => full_accepts_only_after_response, fun s hs htakes hfull hv => ?_⟩
  obtain ⟨m, u, hsu, hu, hroom⟩ := offer_gets_room hs htakes ⟨htakes.1, hv, rfl, rfl⟩ hfull
  obtain ⟨n, t, hut, ht⟩ := offer_enters hu hroom
  exact ⟨m + n, t, reaches_add hsu hut, ht ▸ List.prefix_rfl⟩

/-! ### Everything that is outstanding -/

/-- The cycles to come are all eager, with no reset, and the state is sound. -/
structure State.Draining (s : State) : Prop where
  inv : s.Inv
  noReset : s.noReset
  goesOn : s.hostGoesOn
  eager : s.moves = []

theorem State.Draining.nextMove {s : State} (hs : s.Draining) : s.nextMove = Move.eager := by
  rw [nextMove_of_moves_nil hs.eager, Habit.move, hs.noReset.2, hs.goesOn.1, hs.goesOn.2]
  rfl

theorem draining_step {s t : State} (hs : s.Draining) (hst : step s = .next t) : t.Draining where
  inv := everyCycleKeepsTheInvariant s t hs.inv hst
  noReset := noReset_step hs.noReset hst
  goesOn := hostGoesOn_step hs.goesOn hst
  eager := by
    obtain rfl := eq_edge_of_step hst
    simp [hs.eager]

/-- What every eager cycle brings down: two for each outstanding command, and one more while the queue is empty. -/
def State.work (s : State) : Nat := 2 * s.outstanding.length + if s.q = [] then 1 else 0

theorem ledger_length {s t : State} (h : t.ledger = s.ledger) :
    t.received.length + t.outstanding.length = s.received.length + s.outstanding.length := by
  simpa [State.ledger] using congrArg List.length h

/-- A host that goes on to offer has a command on offer while it has one left. -/
theorem settled_offers {s : State} (ho : s.nextMove.offer = true) (h : s.pending ++ s.program ≠ []) :
    s.settled.cmdValid = true := by
  rw [settled_cmdValid]
  obtain ⟨he, hv | hv | hp⟩ | ⟨-, -, c, cs, -, he⟩ := hostOffer_cases s.nextMove s
  · rw [he, hv]
  · simp [ho] at hv
  · rw [he]
    simpa [State.pending, hp] using h
  · rw [he]

/-- An empty queue takes a command in an eager cycle, while there is one. -/
theorem draining_fills {s t : State} (hs : s.Draining) (hq : s.q = []) (h : s.outstanding ≠ [])
    (hst : step s = .next t) : t.q ≠ [] := by
  obtain rfl := eq_edge_of_step hst
  have hr : s.nextMove.rst = false := by rw [hs.nextMove]; rfl
  have hvalid := settled_offers (s := s) (by rw [hs.nextMove]; rfl) (by simpa [State.outstanding, hq] using h)
  have hready : s.settled.cmdReady = true := by
    rw [settled_cmdReady hr, hs.nextMove, hq]
    simp [Move.eager, qdepth_pos]
  rw [edge_q_of_not_reset (by simp [hr]), hvalid, hready]
  simp

/-- An eager cycle answers the head of the queue or, where there is none, puts a command there. -/
theorem draining_work_decreases {s t : State} (hs : s.Draining) (h : s.outstanding ≠ []) (hst : step s = .next t) :
    t.work < s.work := by
  have hr : s.nextMove.rst = false := by rw [hs.nextMove]; rfl
  have hlen := ledger_length (step_ledger hs.inv hr hst)
  cases hq : s.q with
  | nil =>
    have hmono := (received_mono hst).length_le
    rw [State.work, State.work, if_neg (draining_fills hs hq h hst), if_pos hq]
    omega
  | cons c rest =>
    have hans := step_answers_head hs.inv hr (by rw [hs.nextMove]; rfl) (by rw [hs.nextMove]; rfl) hq hst
    simp only [hans, List.length_append, List.length_singleton] at hlen
    rw [State.work, State.work, if_neg (by simp [hq] : s.q ≠ [])]
    split <;> omega

theorem draining_empties {s : State} (hs : s.Draining) : ∃ n t, State.Reaches n s t ∧ t.outstanding = [] := by
  induction hw : s.work using Nat.strong_induction_on generalizing s with
  | _ w ih =>
    by_cases h : s.outstanding = []
    · exact ⟨0, s, reaches_zero.2 rfl, h⟩
    · have hnext := step_eq_settled s
      obtain ⟨n, t, hreach, ht⟩ :=
        ih _ (hw ▸ draining_work_decreases hs h hnext) (draining_step hs hnext) rfl
      exact ⟨n + 1, t, reaches_succ.2 ⟨_, hnext, hreach⟩, ht⟩

/-- The listed moves come to their end. -/
theorem eventually_draining {s : State} (hs : s.Inv) (hn : s.noReset) (hg : s.hostGoesOn) :
    ∃ n t, State.Reaches n s t ∧ t.Draining := by
  refine eventually_of_waits (Wait := fun u => u.Inv ∧ u.noReset ∧ u.hostGoesOn) ?_ ?_ ⟨hs, hn, hg⟩
  · rintro u v ⟨hu, hnu, hgu⟩ huv
    exact .inr ⟨everyCycleKeepsTheInvariant u v hu huv, noReset_step hnu huv, hostGoesOn_step hgu huv⟩
  · rintro u v ⟨hu, hnu, hgu⟩ hm huv
    exact draining_step ⟨hu, hnu, hgu, hm⟩ huv

/-- Settles O42: the outstanding commands run out, and the sequence of responses received and due is the one it was
(`responseSequenceDoesNotDependOnTheSchedule`). -/
theorem everyCommandIsAnsweredInOrder : Obligations.EveryCommandIsAnsweredInOrder := by
  intro s hs hn hg
  obtain ⟨m, u, hsu, hu⟩ := eventually_draining hs hn hg
  obtain ⟨n, t, hut, hempty⟩ := draining_empties hu
  have hreach := reaches_add hsu hut
  have hsame := responseSequenceDoesNotDependOnTheSchedule (m + n) s t hs hn hreach
  exact ⟨m + n, t, hreach, hempty, by simpa [hempty] using hsame⟩

end Sys2Proof.Machine
end

section
/-! PROOF. The two ROMs (20_memory.md R41 to R44): FWD range by range, and INV against FWD. -/

namespace Sys2Proof.Machine

/-- The code FWD holds at an index, by the five ranges of R41. -/
theorem fwd_toNat (i : Index) : (fwd i).toNat =
    if i.toNat ≤ 25 then 0x41 + i.toNat
    else if i.toNat ≤ 51 then 0x61 + (i.toNat - 26)
    else if i.toNat ≤ 61 then 0x30 + (i.toNat - 52)
    else if i.toNat = 62 then 0x2B else 0x2F := by
  unfold fwd
  split_ifs
  · simp; omega
  · simp; omega
  · simp; omega
  · rfl
  · rfl

/-- Settles O9: the ranges are the branches of FWD, and the table is FWD read at the 64 indices. -/
theorem fwdHoldsTheAlphabetInOrder : Obligations.FwdHoldsTheAlphabetInOrder :=
  ⟨fwd_toNat, by decide⟩

/-- Settles O10: INV gives the index back, so that FWD is injective. -/
theorem fwdEntriesAreDistinctAndNeverPadding : Obligations.FwdEntriesAreDistinctAndNeverPadding := by
  refine ⟨fun i j h => ?_, fwd_ne_padChar⟩
  have hinv : inv (fwd i) = inv (fwd j) := congrArg inv h
  simpa using hinv

theorem inv_eq_idx {c : Byte} {i : Index} : inv c = .idx i ↔ fwd i = c :=
  ⟨fwd_of_inv, fun h => h ▸ inv_fwd i⟩

theorem inv_eq_bad {c : Byte} : inv c = .bad ↔ c ≠ padChar ∧ ∀ i : Index, fwd i ≠ c := by
  constructor
  · intro h
    refine ⟨ne_padChar_of_bad h, fun i hi => ?_⟩
    rw [inv_eq_idx.2 hi] at h
    cases h
  · rintro ⟨hp, hf⟩
    by_contra hb
    obtain ⟨i, hi⟩ := exists_idx hp hb
    exact hf i (fwd_of_inv hi)

/-- Settles O11: each kind of entry says what its code is. -/
theorem invIsTheInverseOfFwd : Obligations.InvIsTheInverseOfFwd :=
  fun _ => ⟨fun _ => inv_eq_idx, inv_eq_pad, inv_eq_bad⟩

/-- No range of alphabet characters reaches the codes with the top bit set (20_memory.md R44). -/
theorem inv_of_high {c : Byte} (h : 0x80 ≤ c.toNat) : inv c = .bad := by
  rw [inv, if_neg (by omega), if_neg (by omega), if_neg (by omega), if_neg (by omega), if_neg (by omega),
    if_neg (by omega)]

/-- The three kinds share out the entries of any list of codes. -/
theorem inv_counts_add (ns : List Nat) :
    (ns.filter fun n => inv (BitVec.ofNat 8 n) = .bad).length +
      (ns.filter fun n => inv (BitVec.ofNat 8 n) = .pad).length +
      (ns.filter fun n => inv (BitVec.ofNat 8 n) ≠ .pad ∧ inv (BitVec.ofNat 8 n) ≠ .bad).length = ns.length := by
  induction ns with
  | nil => rfl
  | cons n ns ih =>
    rw [List.length_cons, ← ih]
    cases h : inv (BitVec.ofNat 8 n) with
    | idx i => simp [h]; omega
    | pad => simp [h]; omega
    | bad => simp [h]; omega

/-- Settles O12: the PAD and IDX entries are counted, the other codes are BAD, and those from 0x80 lie above every
range. -/
theorem invEntryCountsAndBadCodes : Obligations.InvEntryCountsAndBadCodes := by
  have hpad : ((List.range 256).filter fun n => inv (BitVec.ofNat 8 n) = .pad).length = 1 := by decide
  have hidx : ((List.range 256).filter fun n =>
      inv (BitVec.ofNat 8 n) ≠ .pad ∧ inv (BitVec.ofNat 8 n) ≠ .bad).length = 64 := by decide
  refine ⟨?_, hpad, hidx, by decide, fun _ => inv_of_high⟩
  have hsum := inv_counts_add (List.range 256)
  rw [hpad, hidx, List.length_range] at hsum
  omega

end Sys2Proof.Machine
end

section
/-! PROOF. What a command changes, and when every command is done (20_memory.md R50, R52). -/

namespace Sys2Proof.Machine

/-- Settles O26: a command does no more than offer its response. -/
theorem commandsChangeOnlyTheResponsePort : Obligations.CommandsChangeOnlyTheResponsePort :=
  fun i s => ⟨s.offerResponse (instrResponse i), exec_eq i s, by simp⟩

/-- Since the last reset the accepted commands are the answered ones and those still in the queue. -/
theorem accepted_length_eq {s : State} (hs : s.Inv) :
    (acceptedOf (sinceReset s.trace)).length = (responsesOf (sinceReset s.trace)).length + s.q.length := by
  have hrun := replay_sinceReset hs.behaviour
  have hsame := replay_responses hrun (reset_not_mem_sinceReset s.trace)
  simpa using congrArg List.length hsame

/-- Settles O39: the counts differ by the length of the queue. -/
theorem equalCountsMeanEveryCommandIsDone : Obligations.EqualCountsMeanEveryCommandIsDone := by
  intro s hs
  rw [accepted_length_eq hs, ← List.length_eq_zero_iff]
  omega

end Sys2Proof.Machine
end

section
/-! PROOF. Command words class by class (30_encoding.md R62 to R69): what the control byte says, what a word of each
class decodes to, and that decoding and encoding undo each other up to the ignored bits. -/

namespace Sys2Proof

open Sys2Proof.Machine

/-! ### The table and the match and mask list of R67 -/

theorem classify_eq_enc1 {w : Word} : classify w = .enc1 ↔ controlByte w = 0x01#8 :=
  (by decide : ∀ c : Byte, classifyControl c = .enc1 ↔ c = 0x01#8) (controlByte w)

theorem classify_eq_enc2 {w : Word} : classify w = .enc2 ↔ controlByte w = 0x02#8 :=
  (by decide : ∀ c : Byte, classifyControl c = .enc2 ↔ c = 0x02#8) (controlByte w)

theorem classify_eq_enc3 {w : Word} : classify w = .enc3 ↔ controlByte w = 0x03#8 :=
  (by decide : ∀ c : Byte, classifyControl c = .enc3 ↔ c = 0x03#8) (controlByte w)

theorem classify_eq_dec {w : Word} : classify w = .dec ↔ controlByte w ∈ [0x40#8, 0x41#8, 0x42#8, 0x43#8] :=
  (by decide : ∀ c : Byte, classifyControl c = .dec ↔ c ∈ [0x40#8, 0x41#8, 0x42#8, 0x43#8]) (controlByte w)

theorem classify_eq_decl {w : Word} : classify w = .decl ↔ controlByte w ∈ [0x48#8, 0x49#8, 0x4A#8, 0x4B#8] :=
  (by decide : ∀ c : Byte, classifyControl c = .decl ↔ c ∈ [0x48#8, 0x49#8, 0x4A#8, 0x4B#8]) (controlByte w)

/-- The reserved ranges. -/
theorem classifyControl_eq_rsvd : ∀ c : Byte, classifyControl c = .rsvd ↔
    c.toNat = 0 ∨ (0x04 ≤ c.toNat ∧ c.toNat ≤ 0x3F) ∨ (0x44 ≤ c.toNat ∧ c.toNat ≤ 0x47) ∨ 0x4C ≤ c.toNat := by decide

/-- The match and mask list of R67. -/
theorem classifyControl_mask : ∀ c : Byte,
    (classifyControl c = .enc1 ↔ c &&& 0xFF#8 = 0x01#8) ∧
    (classifyControl c = .enc2 ↔ c &&& 0xFF#8 = 0x02#8) ∧
    (classifyControl c = .enc3 ↔ c &&& 0xFF#8 = 0x03#8) ∧
    (classifyControl c = .dec ↔ c &&& 0xFC#8 = 0x40#8) ∧
    (classifyControl c = .decl ↔ c &&& 0xFC#8 = 0x48#8) := by decide

/-! ### What a word of each class decodes to -/

theorem decode_of_enc1 {w : Word} (h : classify w = .enc1) : decode w = .ok (.enc1 (encoderByte w 0)) := by
  have hd := decode_enc1 (decoderChar w 0) (decoderChar w 1) (decoderChar w 2) (decoderChar w 3)
  rwa [← classify_eq_enc1.1 h, ← word_eq_append] at hd

theorem decode_of_enc2 {w : Word} (h : classify w = .enc2) :
    decode w = .ok (.enc2 (encoderByte w 0) (encoderByte w 1)) := by
  have hd := decode_enc2 (decoderChar w 0) (decoderChar w 1) (decoderChar w 2) (decoderChar w 3)
  rwa [← classify_eq_enc2.1 h, ← word_eq_append] at hd

theorem decode_of_enc3 {w : Word} (h : classify w = .enc3) :
    decode w = .ok (.enc3 (encoderByte w 0) (encoderByte w 1) (encoderByte w 2)) := by
  have hd := decode_enc3 (decoderChar w 0) (decoderChar w 1) (decoderChar w 2) (decoderChar w 3)
  rwa [← classify_eq_enc3.1 h, ← word_eq_append] at hd

theorem decode_of_dec {w : Word} (h : classify w = .dec) : decode w = .ok (.dec (suppliedText w)) := by
  have hd := decode_dec (classify_eq_dec.1 h) (decoderChar w 0) (decoderChar w 1) (decoderChar w 2) (decoderChar w 3)
  rwa [← word_eq_append, ← countField_eq] at hd

theorem decode_of_decl {w : Word} (h : classify w = .decl) : decode w = .ok (.decl (suppliedText w)) := by
  have hd := decode_decl (classify_eq_decl.1 h) (decoderChar w 0) (decoderChar w 1) (decoderChar w 2) (decoderChar w 3)
  rwa [← word_eq_append, ← countField_eq] at hd

/-- A word that decodes is a command of the class that its control byte says. -/
theorem classify_of_ok {w : Word} {i : Instr} (h : decode w = .ok i) : classify w = i.cls := by
  cases hc : classify w with
  | enc1 => cases (decode_of_enc1 hc).symm.trans h; rfl
  | enc2 => cases (decode_of_enc2 hc).symm.trans h; rfl
  | enc3 => cases (decode_of_enc3 hc).symm.trans h; rfl
  | dec => cases (decode_of_dec hc).symm.trans h; rfl
  | decl => cases (decode_of_decl hc).symm.trans h; rfl
  | rsvd =>
    obtain ⟨e, he⟩ := decode_rsvd hc
    cases he.symm.trans h

/-- Only a reserved word is rejected. -/
theorem classify_of_error {w : Word} {e : Reserved} (h : decode w = .error e) : classify w = .rsvd := by
  cases hc : classify w with
  | enc1 => cases (decode_of_enc1 hc).symm.trans h
  | enc2 => cases (decode_of_enc2 hc).symm.trans h
  | enc3 => cases (decode_of_enc3 hc).symm.trans h
  | dec => cases (decode_of_dec hc).symm.trans h
  | decl => cases (decode_of_decl hc).symm.trans h
  | rsvd => rfl

theorem respond_of_ok {w : Word} {i : Instr} (h : decode w = .ok i) : respond w = instrResponse i := by
  simp only [respond, h]

/-- Settles O4: the two tables are facts of the control byte, and the decoder reads the class of its word. -/
theorem controlByteAloneDecidesTheClass : Obligations.ControlByteAloneDecidesTheClass := by
  refine ⟨fun w => ?_, fun w => classifyControl_mask (controlByte w), fun w => ?_⟩
  · exact ⟨classify_eq_enc1, classify_eq_enc2, classify_eq_enc3, classify_eq_dec, classify_eq_decl,
      classifyControl_eq_rsvd (controlByte w)⟩
  · cases hd : decode w with
    | ok i => exact ⟨classify_of_ok hd, fun s => by rw [exec_eq, respond_of_ok hd]⟩
    | error e => exact ⟨classify_of_error hd, respond_of_error hd⟩

/-! ### Decoding an encoded command -/

theorem decode_encode_dec {text : List Byte} (h1 : 1 ≤ text.length) (h4 : text.length ≤ 4) :
    decode (encode (.dec text)) = .ok (.dec text) := by
  obtain ⟨hctl, hcount, -, -⟩ := decoder_control (text.length - 1) (by omega)
  have h := decode_dec hctl (text.getD 0 0#8) (text.getD 1 0#8) (text.getD 2 0#8) (text.getD 3 0#8)
  rwa [hcount, take_textLanes text h1 h4] at h

theorem wellFormed_dec {text : List Byte} : (Instr.dec text).wellFormed = true ↔ 1 ≤ text.length ∧ text.length ≤ 4 := by
  simp [Instr.wellFormed]

theorem wellFormed_decl {text : List Byte} :
    (Instr.decl text).wellFormed = true ↔ 1 ≤ text.length ∧ text.length ≤ 4 := by
  simp [Instr.wellFormed]

/-- Settles O2: an encoder word is read lane by lane, and the `mm` of a decoder word says how many lanes are its
text. -/
theorem decodeOfEncodeGivesTheCommandBack : Obligations.DecodeOfEncodeGivesTheCommandBack := by
  intro i hi
  cases i with
  | enc1 b0 => exact decode_enc1 0x00#8 b0 0x00#8 0x00#8
  | enc2 b0 b1 => exact decode_enc2 0x00#8 b0 b1 0x00#8
  | enc3 b0 b1 b2 => exact decode_enc3 0x00#8 b0 b1 b2
  | dec text =>
    obtain ⟨h1, h4⟩ := wellFormed_dec.1 hi
    exact decode_encode_dec h1 h4
  | decl text =>
    obtain ⟨h1, h4⟩ := wellFormed_decl.1 hi
    exact decode_encode_decl h1 h4

/-! ### Encoding a decoded word -/

/-- A mask of whole bytes that keeps the control byte acts on each lane of a word. -/
theorem and_mask_lanes (w : Word) (m0 m1 m2 m3 : Byte) :
    w &&& (0xFF#8 ++ (m0 ++ m1 ++ m2 ++ m3)) =
      controlByte w ++ ((decoderChar w 0 &&& m0) ++ (decoderChar w 1 &&& m1) ++ (decoderChar w 2 &&& m2) ++
        (decoderChar w 3 &&& m3)) := by
  conv_lhs => rw [word_eq_append w]
  rw [lanes_and, and_ff]

theorem encode_enc1_encoderByte {w : Word} (h : classify w = .enc1) :
    encode (.enc1 (encoderByte w 0)) = w &&& 0xFF00FF0000#40 := by
  have hm := and_mask_lanes w 0x00#8 0xFF#8 0x00#8 0x00#8
  rw [classify_eq_enc1.1 h, and_ff, and_zero, and_zero, and_zero] at hm
  exact hm.symm

theorem encode_enc2_encoderByte {w : Word} (h : classify w = .enc2) :
    encode (.enc2 (encoderByte w 0) (encoderByte w 1)) = w &&& 0xFF00FFFF00#40 := by
  have hm := and_mask_lanes w 0x00#8 0xFF#8 0xFF#8 0x00#8
  rw [classify_eq_enc2.1 h, and_ff, and_ff, and_zero, and_zero] at hm
  exact hm.symm

theorem encode_enc3_encoderByte {w : Word} (h : classify w = .enc3) :
    encode (.enc3 (encoderByte w 0) (encoderByte w 1) (encoderByte w 2)) = w &&& 0xFF00FFFFFF#40 := by
  have hm := and_mask_lanes w 0x00#8 0xFF#8 0xFF#8 0xFF#8
  rw [classify_eq_enc3.1 h, and_ff, and_ff, and_ff, and_zero] at hm
  exact hm.symm

theorem suppliedText_length (w : Word) : (suppliedText w).length = suppliedCount w := by
  have h : suppliedCount w ≤ 4 := (countField w).isLt
  simp [suppliedText, h]

theorem suppliedCount_bounds (w : Word) : 1 ≤ suppliedCount w ∧ suppliedCount w ≤ 4 :=
  ⟨Nat.succ_pos _, (countField w).isLt⟩

/-- The supplied text laid out in its lanes again is the word with the lanes past it zero. -/
theorem controlByte_append_suppliedText (w : Word) :
    controlByte w ++ textLanes (suppliedText w) = w &&& suppliedMask (suppliedCount w) := by
  obtain ⟨h1, h4⟩ := suppliedCount_bounds w
  unfold suppliedText
  generalize suppliedCount w = m at h1 h4 ⊢
  obtain rfl | rfl | rfl | rfl : m = 1 ∨ m = 2 ∨ m = 3 ∨ m = 4 := by omega
  · simpa [textLanes, suppliedMask, and_ff, and_zero] using (and_mask_lanes w 0xFF#8 0x00#8 0x00#8 0x00#8).symm
  · simpa [textLanes, suppliedMask, and_ff, and_zero] using (and_mask_lanes w 0xFF#8 0xFF#8 0x00#8 0x00#8).symm
  · simpa [textLanes, suppliedMask, and_ff, and_zero] using (and_mask_lanes w 0xFF#8 0xFF#8 0xFF#8 0x00#8).symm
  · simpa [textLanes, suppliedMask, and_ff, and_zero] using (and_mask_lanes w 0xFF#8 0xFF#8 0xFF#8 0xFF#8).symm

theorem dec_control_of_count : ∀ c ∈ [0x40#8, 0x41#8, 0x42#8, 0x43#8],
    0x40#8 ||| BitVec.ofNat 8 (c.extractLsb' 0 2).toNat = c := by decide

theorem decl_control_of_count : ∀ c ∈ [0x48#8, 0x49#8, 0x4A#8, 0x4B#8],
    0x48#8 ||| BitVec.ofNat 8 (c.extractLsb' 0 2).toNat = c := by decide

/-- The `mm` of a word is one less than the length of its text. -/
theorem suppliedText_length_sub_one (w : Word) :
    (suppliedText w).length - 1 = ((controlByte w).extractLsb' 0 2).toNat := by
  rw [suppliedText_length, suppliedCount, Nat.add_sub_cancel, countField_eq]

theorem encode_dec_suppliedText {w : Word} (h : classify w = .dec) :
    encode (.dec (suppliedText w)) = w &&& suppliedMask (suppliedCount w) := by
  rw [← controlByte_append_suppliedText, ← dec_control_of_count _ (classify_eq_dec.1 h),
    ← suppliedText_length_sub_one]
  rfl

theorem encode_decl_suppliedText {w : Word} (h : classify w = .decl) :
    encode (.decl (suppliedText w)) = w &&& suppliedMask (suppliedCount w) := by
  rw [← controlByte_append_suppliedText, ← decl_control_of_count _ (classify_eq_decl.1 h),
    ← suppliedText_length_sub_one]
  rfl

/-- Settles O3: class by class, the encoding has the word's control byte, the lanes its command uses, and zero in the
others. -/
theorem encodeOfDecodeZeroFillsIgnoredBits : Obligations.EncodeOfDecodeZeroFillsIgnoredBits := by
  intro w i hd
  cases hc : classify w with
  | enc1 =>
    cases (decode_of_enc1 hc).symm.trans hd
    exact ⟨rfl, encode_enc1_encoderByte hc⟩
  | enc2 =>
    cases (decode_of_enc2 hc).symm.trans hd
    exact ⟨rfl, encode_enc2_encoderByte hc⟩
  | enc3 =>
    cases (decode_of_enc3 hc).symm.trans hd
    exact ⟨rfl, encode_enc3_encoderByte hc⟩
  | dec =>
    cases (decode_of_dec hc).symm.trans hd
    rw [wellFormed_dec, encode_dec_suppliedText hc, Instr.usedMask, suppliedText_length]
    exact ⟨suppliedCount_bounds w, rfl⟩
  | decl =>
    cases (decode_of_decl hc).symm.trans hd
    rw [wellFormed_decl, encode_decl_suppliedText hc, Instr.usedMask, suppliedText_length]
    exact ⟨suppliedCount_bounds w, rfl⟩
  | rsvd =>
    obtain ⟨e, he⟩ := decode_rsvd hc
    cases he.symm.trans hd

/-! ### The legal control bytes -/

theorem controlByte_suppliedMask (m : Nat) : controlByte (suppliedMask m) = 0xFF#8 := by
  unfold suppliedMask
  split_ifs <;> rfl

/-- The control byte of a command has no ignored bit (30_encoding.md R65). -/
theorem controlByte_usedMask (i : Instr) : controlByte i.usedMask = 0xFF#8 := by
  cases i with
  | enc1 b0 => rw [Instr.usedMask]; rfl
  | enc2 b0 b1 => rw [Instr.usedMask]; rfl
  | enc3 b0 b1 b2 => rw [Instr.usedMask]; rfl
  | dec text => exact controlByte_suppliedMask text.length
  | decl text => exact controlByte_suppliedMask text.length

/-- The command a word decodes to has the word's control byte. -/
theorem controlByte_encode_of_ok {w : Word} {i : Instr} (h : decode w = .ok i) :
    i.wellFormed = true ∧ controlByte (encode i) = controlByte w := by
  obtain ⟨hwf, henc⟩ := encodeOfDecodeZeroFillsIgnoredBits w i h
  exact ⟨hwf, by rw [henc, controlByte_and, controlByte_usedMask, and_ff]⟩

/-- Every value in a list is reserved or legal. -/
theorem reserved_and_legal_counts_add (ns : List Nat) :
    (ns.filter fun n => classifyControl (BitVec.ofNat 8 n) = .rsvd).length +
      (ns.filter fun n => classifyControl (BitVec.ofNat 8 n) ≠ .rsvd).length = ns.length := by
  have h := ns.length_eq_length_filter_add fun n => decide (classifyControl (BitVec.ofNat 8 n) = .rsvd)
  simpa using h.symm

/-- Settles O5: the reserved values are those that are not legal, and a legal one is the control byte of whatever a word
with it decodes to. -/
theorem exactlyElevenControlBytesAreLegal : Obligations.ExactlyElevenControlBytesAreLegal := by
  have hlegal : (List.range 256).filter (fun n => classifyControl (BitVec.ofNat 8 n) ≠ .rsvd) =
      [0x01, 0x02, 0x03, 0x40, 0x41, 0x42, 0x43, 0x48, 0x49, 0x4A, 0x4B] := by decide
  refine ⟨hlegal, ?_, fun c hc => ?_⟩
  · have hsum := reserved_and_legal_counts_add (List.range 256)
    have hcount := congrArg List.length hlegal
    rw [hcount, List.length_range] at hsum
    exact Nat.add_right_cancel hsum
  · have hctl : controlByte (c ++ 0#32) = c := controlByte_append c 0#32
    cases hd : decode (c ++ 0#32) with
    | ok i =>
      obtain ⟨hwf, henc⟩ := controlByte_encode_of_ok hd
      exact ⟨i, hwf, henc.trans hctl⟩
    | error e =>
      have hr := classify_of_error hd
      rw [classify, hctl] at hr
      exact absurd hr hc

/-! ### Ignored bits -/

theorem suppliedText_eq_map (w : Word) : suppliedText w = (List.range (suppliedCount w)).map (decoderChar w) := by
  obtain ⟨h1, h4⟩ := suppliedCount_bounds w
  unfold suppliedText
  generalize suppliedCount w = m at h1 h4 ⊢
  obtain rfl | rfl | rfl | rfl : m = 1 ∨ m = 2 ∨ m = 3 ∨ m = 4 := by omega
  · rfl
  · rfl
  · rfl
  · rfl

/-- Words that agree on the control byte and on the characters it says are supplied have the same text. -/
theorem suppliedText_congr {w w' : Word} (hctl : controlByte w = controlByte w')
    (h : ∀ k < suppliedCount w, decoderChar w k = decoderChar w' k) : suppliedText w = suppliedText w' := by
  have hcount : suppliedCount w = suppliedCount w' := by simp only [suppliedCount, countField_eq, hctl]
  rw [suppliedText_eq_map, suppliedText_eq_map, ← hcount]
  exact List.map_congr_left fun k hk => h k (List.mem_range.1 hk)

theorem respond_congr {w w' : Word} (h : decode w = decode w') : respond w = respond w' := by
  simp only [respond, h]

/-- Settles O6: such words decode to the same command. -/
theorem ignoredBitsHaveNoEffectOnTheResponse : Obligations.IgnoredBitsHaveNoEffectOnTheResponse := by
  intro w w' hctl
  have hcls : classify w' = classify w := by rw [classify, classify, hctl]
  refine ⟨fun hc h0 => respond_congr ?_, fun hc h => respond_congr ?_, fun hc h => respond_congr ?_,
    fun hc h => respond_congr ?_⟩
  · have hc : classify w = .enc1 := classify_eq_enc1.2 hc
    rw [decode_of_enc1 hc, decode_of_enc1 (hcls.trans hc), h0]
  · have hc : classify w = .enc2 := classify_eq_enc2.2 hc
    rw [decode_of_enc2 hc, decode_of_enc2 (hcls.trans hc), h 0 (by decide), h 1 (by decide)]
  · have hc : classify w = .enc3 := classify_eq_enc3.2 hc
    rw [decode_of_enc3 hc, decode_of_enc3 (hcls.trans hc), h 0 (by decide), h 1 (by decide), h 2 (by decide)]
  · rcases hc with hc | hc
    · rw [decode_of_dec hc, decode_of_dec (hcls.trans hc), suppliedText_congr hctl h]
    · rw [decode_of_decl hc, decode_of_decl (hcls.trans hc), suppliedText_congr hctl h]

/-- Settles O1: the fields of each word are read off its bits. -/
theorem specWordsDecodeToTheirCommands : Obligations.SpecWordsDecodeToTheirCommands := by
  refine ⟨?_, ?_, ?_, ?_, ?_, ?_, ?_, ?_, ?_, ?_, ?_, ?_⟩ <;> decide

end Sys2Proof
end

section
/-! PROOF. The fields of the response to any word (30_encoding.md R66), and the response to a reserved word (R68). -/

namespace Sys2Proof.Machine

/-- Settles O23: a reserved word is rejected, and so answered with cause CMD on the response port alone. -/
theorem reservedWordsGetTheCmdResponse : Obligations.ReservedWordsGetTheCmdResponse := by
  intro w s h
  obtain ⟨e, he⟩ := decode_rsvd h
  rw [runCommand_eq, respond_of_error he]
  rfl

/-- A decoder command fails, or gives at least one byte and 0x00 before its bytes (41_decoder.md R107 to R109). -/
theorem decoderResponse_shape (final : Bool) (text : List Byte) :
    (∃ c, c ≠ .none ∧ decoderResponse final text = failWord c) ∨
    ∃ n acc, 1 ≤ n.toNat ∧ decoderResponse final text = successWord n (bytesOut acc) := by
  obtain ⟨c, he, hc⟩ | ⟨_, _, _, _, _, _, _, _, -, -, -, -, -, hr⟩ | ⟨-, _, _, _, _, _, _, -, -, -, -, -, hr⟩ |
    ⟨-, _, _, _, _, -, -, -, -, hr⟩ := decoderResponse_cases final text
  · exact .inl ⟨c, by rcases hc with rfl | rfl | rfl <;> nofun, he⟩
  · exact .inr ⟨3#2, _, by decide, hr⟩
  · exact .inr ⟨2#2, _, by decide, hr⟩
  · exact .inr ⟨1#2, _, by decide, hr⟩

theorem rspZero_successWord (n : BitVec 2) (d : BitVec 32) : rspZero (successWord n d) = 0#2 :=
  rspZero_responseWord _ _ _ _

theorem rspCause_successWord (n : BitVec 2) (d : BitVec 32) : rspCause (successWord n d) = 0#3 :=
  rspCause_responseWord _ _ _ _

theorem rspZero_failWord (c : Cause) : rspZero (failWord c) = 0#2 := rspZero_responseWord _ _ _ _

theorem rspCount_failWord (c : Cause) : rspCount (failWord c) = 0#2 := rspCount_responseWord _ _ _ _

theorem rspDout_failWord (c : Cause) : (failWord c).extractLsb' 0 32 = 0#32 := rspDout_responseWord _ _ _ _

/-- The codes of the causes of a failure (60_exceptions.md R151). -/
theorem code_of_ne_none {c : Cause} (h : c ≠ .none) : c.code = 1#3 ∨ c.code = 2#3 ∨ c.code = 3#3 ∨ c.code = 4#3 := by
  cases c with
  | none => exact absurd rfl h
  | len => exact .inl rfl
  | pad => exact .inr (.inl rfl)
  | char => exact .inr (.inr (.inl rfl))
  | cmd => exact .inr (.inr (.inr rfl))

/-- A success response with `count = n` and data `d` to the word `w` is as R66 says for the class of `w`. -/
structure SuccessFits (w : Word) (n : BitVec 2) (d : BitVec 32) : Prop where
  nonempty : 1 ≤ n.toNat
  decoder : classify w = .dec ∨ classify w = .decl → rspLane (successWord n d) 0 = 0x00#8
  encoder : classify w = .enc1 ∨ classify w = .enc2 ∨ classify w = .enc3 → n = countField w

/-- An encoder command succeeds (40_encoder.md R84). -/
theorem respond_encoder {w : Word} (hc : classify w = .enc1 ∨ classify w = .enc2 ∨ classify w = .enc3) :
    1 ≤ (countField w).toNat ∧ ∃ d, respond w = successWord (countField w) d := by
  rcases hc with hc | hc | hc
  · rw [countField_eq, classify_eq_enc1.1 hc, respond_of_ok (decode_of_enc1 hc)]
    exact ⟨by decide, _, rfl⟩
  · rw [countField_eq, classify_eq_enc2.1 hc, respond_of_ok (decode_of_enc2 hc)]
    exact ⟨by decide, _, rfl⟩
  · rw [countField_eq, classify_eq_enc3.1 hc, respond_of_ok (decode_of_enc3 hc)]
    exact ⟨by decide, _, rfl⟩

/-- The response to `w` is a failure with a cause, or a success that fits `w`. -/
def ResponseFits (w : Word) : Prop :=
  (∃ c, c ≠ .none ∧ respond w = failWord c) ∨ ∃ n d, respond w = successWord n d ∧ SuccessFits w n d

theorem responseFits_encoder {w : Word} (hc : classify w = .enc1 ∨ classify w = .enc2 ∨ classify w = .enc3) :
    ResponseFits w := by
  obtain ⟨hn, d, hr⟩ := respond_encoder hc
  refine .inr ⟨_, d, hr, hn, ?_, fun _ => rfl⟩
  rcases hc with hc | hc | hc <;> simp [hc]

theorem responseFits_decoder {w : Word} (hc : classify w = .dec ∨ classify w = .decl) {final : Bool} {text : List Byte}
    (hr : respond w = decoderResponse final text) : ResponseFits w := by
  obtain ⟨c, hne, he⟩ | ⟨n, acc, hn, he⟩ := decoderResponse_shape final text
  · exact .inl ⟨c, hne, hr.trans he⟩
  · refine .inr ⟨n, _, hr.trans he, hn, fun _ => ?_, ?_⟩
    · exact (rspLane_successWord n 0x00#8 (accByte acc 0) (accByte acc 1) (accByte acc 2)).1
    · rcases hc with hc | hc <;> simp [hc]

theorem responseFits (w : Word) : ResponseFits w := by
  cases hc : classify w with
  | enc1 => exact responseFits_encoder (.inl hc)
  | enc2 => exact responseFits_encoder (.inr (.inl hc))
  | enc3 => exact responseFits_encoder (.inr (.inr hc))
  | dec => exact responseFits_decoder (.inl hc) (respond_of_ok (decode_of_dec hc))
  | decl => exact responseFits_decoder (.inr hc) (respond_of_ok (decode_of_decl hc))
  | rsvd =>
    obtain ⟨e, he⟩ := decode_rsvd hc
    exact .inl ⟨.cmd, nofun, respond_of_error he⟩

/-- Settles O22: the fields of a failure, and those of a success that fits its word. -/
theorem responseFieldsOfEveryWord : Obligations.ResponseFieldsOfEveryWord := by
  intro w
  obtain ⟨c, hc, hr⟩ | ⟨n, d, hr, hfits⟩ := responseFits w
  · rw [hr, rspErr_failWord, rspCause_failWord]
    exact ⟨rspZero_failWord c, nofun, fun _ => ⟨code_of_ne_none hc, rspCount_failWord c, rspDout_failWord c⟩⟩
  · rw [hr, rspErr_successWord, rspCount_successWord]
    exact ⟨rspZero_successWord n d,
      fun _ => ⟨rspCause_successWord n d, hfits.nonempty, hfits.decoder, hfits.encoder⟩, nofun⟩

end Sys2Proof.Machine
end

section
/-! PROOF. The assembler on the operands as they are printed (30_encoding.md R70 to R72): each operand is read back
after the blank that follows the mnemonic, and so the whole line is assembled. The lines of the disassembler are such
lines. -/

namespace Sys2Proof.Machine

/-! ### The operand after its blank -/

theorem skipBlanks_space (cs : List Char) : skipBlanks (' ' :: cs) = skipBlanks cs := by rw [skipBlanks]

theorem readText_space (cs : List Char) : readText (' ' :: cs) = readText cs := by
  rw [readText, readText, skipBlanks_space]

theorem readWord_space (cs : List Char) : readWord (' ' :: cs) = readWord cs := by
  rw [readWord, readWord, skipBlanks_space]

theorem readByte_space (cs : List Char) : readByte (' ' :: cs) = readByte cs := by
  rw [readByte, readByte, skipBlanks_space]

theorem readBytes_space {cs : List Char} (h : atLineEnd cs = false) : readBytes (' ' :: cs) = readBytes cs := by
  have hs : atLineEnd (' ' :: cs) = false := by rw [← h, atLineEnd, atLineEnd, skipBlanks_space]
  rw [readBytes, readBytes, hs, h, readByte_space]
  rfl

/-! ### Byte lists -/

/-- A byte list as the disassembler prints it. -/
def printBytes (b : Byte) (bs : List Byte) : List Char :=
  printByte b ++ bs.flatMap (fun x => [',', ' '] ++ printByte x)

theorem readBytes_printBytes_append (b : Byte) (bs : List Byte) {rest : List Char} (hc : readComma rest = none) :
    readBytes (printBytes b bs ++ rest) = some (b :: bs, rest) := by
  rw [printBytes, List.append_assoc, readBytes_printBytes b bs rest hc]

theorem readBytes_printed (b : Byte) (bs : List Byte) : readBytes (' ' :: printBytes b bs) = some (b :: bs, []) := by
  have hend : atLineEnd (printBytes b bs) = false := rfl
  rw [readBytes_space hend]
  simpa using readBytes_printBytes_append b bs (rest := []) rfl

/-- A line of an encoder command is assembled to the commands of its bytes, if they are as many as it wants. -/
theorem assembleBytes_printed (b : Byte) (bs : List Byte) :
    assembleBytes (b :: bs).length (' ' :: printBytes b bs) = some ((encodeExpand (b :: bs)).map encode) := by
  rw [assembleBytes, readBytes_printed]
  exact if_pos rfl

theorem readSequence_printBytes (b : Byte) (bs : List Byte) :
    readSequence (' ' :: printBytes b bs) = some (b :: bs, []) := readBytes_printed b bs

theorem readSequence_bracketed (b : Byte) (bs : List Byte) :
    readSequence (' ' :: '[' :: (printBytes b bs ++ [']'])) = some (b :: bs, []) := by
  have hopen : readBracketEnd (printBytes b bs ++ [']']) = none := rfl
  have hlist := readBytes_printBytes_append b bs (rest := [']']) rfl
  change readBracketed (printBytes b bs ++ [']']) = _
  rw [readBracketed, hopen, hlist]
  rfl

/-! ### Texts -/

theorem readText_printed (text : List Byte) : readText (' ' :: printText text) = some (text, []) := by
  simpa [readText_space] using readText_printText text []

theorem assembleText_printed {mk : List Byte → Instr} {text : List Byte} (h : (mk text).wellFormed = true) :
    assembleText mk (' ' :: printText text) = some [encode (mk text)] := by
  rw [assembleText, readText_printed]
  exact if_pos h

/-- A printed text is ASCII, and so ENCODE reads it as the bytes it stands for. -/
theorem readSequence_printText (d : List Byte) : readSequence (' ' :: printText d) = some (d, []) := by
  have hread : readText (printText d) = some (d, []) := by simpa using readText_printText d []
  change readQuotedBytes (printText d) = _
  simp only [readQuotedBytes, hread]
  rw [if_pos]
  simpa using printText_ascii d

/-! ### Lines -/

/-- A printed command assembles to its word (30_encoding.md R70). -/
theorem assembleLine_printInstr {i : Instr} (h : i.wellFormed = true) :
    assembleLine (printInstr i) = some [encode i] := by
  cases i with
  | enc1 b0 => exact assembleBytes_printed b0 []
  | enc2 b0 b1 => exact assembleBytes_printed b0 [b1]
  | enc3 b0 b1 b2 => exact assembleBytes_printed b0 [b1, b2]
  | dec text => exact assembleText_printed h
  | decl text => exact assembleText_printed h

/-- A `.cmd` line assembles to the word it prints (30_encoding.md R71). -/
theorem assembleLine_cmd (w : Word) : assembleLine (['.', 'c', 'm', 'd', ' '] ++ printWord w) = some [w] := by
  have hread : readWord (' ' :: printWord w) = some (w, []) := by simpa [readWord_space] using readWord_printWord w []
  change assembleOperands ['.', 'c', 'm', 'd'] (' ' :: printWord w) = _
  simp only [assembleOperands, hread]
  rfl

theorem assembleLine_encode {cs : List Char} {d : List Byte} (h : readSequence (' ' :: cs) = some (d, [])) :
    assembleLine ("ENCODE ".toList ++ cs) = some ((encodeExpand d).map encode) := by
  change assembleOperands ['E', 'N', 'C', 'O', 'D', 'E'] (' ' :: cs) = _
  simp only [assembleOperands, h]
  rfl

theorem assembleLine_decode {cs : List Char} {t : List Byte} (h : readText (' ' :: cs) = some (t, [])) :
    assembleLine ("DECODE ".toList ++ cs) = some ((decodeExpand t).map encode) := by
  change assembleOperands ['D', 'E', 'C', 'O', 'D', 'E'] (' ' :: cs) = _
  simp only [assembleOperands, h]
  rfl

/-- Settles O58: each operand form is read back as its bytes or characters, and the line is their expansion. -/
theorem pseudoInstructionLinesExpand : Obligations.PseudoInstructionLinesExpand :=
  ⟨fun t => assembleLine_decode (readText_printed t), fun d => assembleLine_encode (readSequence_printText d),
    ⟨by decide, by decide⟩, fun b bs =>
      ⟨assembleLine_encode (readSequence_printBytes b bs), assembleLine_encode (readSequence_bracketed b bs)⟩⟩

/-- Settles O8: the lines are read to their ends. -/
theorem assemblerExampleLines : Obligations.AssemblerExampleLines := by
  refine ⟨?_, ?_, ?_, ?_, ?_, ?_, ?_, ?_⟩ <;> decide

/-! ### The disassembler -/

theorem disassemble_of_ok {w : Word} {i : Instr} (h : decode w = .ok i) : disassemble w = printInstr i := by
  simp only [disassemble, h]

theorem disassemble_of_error {w : Word} {e : Reserved} (h : decode w = .error e) :
    disassemble w = ['.', 'c', 'm', 'd', ' '] ++ printWord w := by
  simp only [disassemble, h]

theorem canonicalWord_of_ok {w : Word} {i : Instr} (h : decode w = .ok i) : canonicalWord w = encode i := by
  simp only [canonicalWord, h]

theorem canonicalWord_of_error {w : Word} {e : Reserved} (h : decode w = .error e) : canonicalWord w = w := by
  simp only [canonicalWord, h]

/-- A printed line assembles to the word with its ignored bits zero. -/
theorem assembleLine_disassemble (w : Word) : assembleLine (disassemble w) = some [canonicalWord w] := by
  cases hd : decode w with
  | ok i =>
    obtain ⟨hwf, -⟩ := encodeOfDecodeZeroFillsIgnoredBits w i hd
    rw [disassemble_of_ok hd, canonicalWord_of_ok hd, assembleLine_printInstr hwf]
  | error e => rw [disassemble_of_error hd, canonicalWord_of_error hd, assembleLine_cmd]

/-- The zero-filled word stands for the same command. -/
theorem disassemble_canonicalWord (w : Word) : disassemble (canonicalWord w) = disassemble w := by
  cases hd : decode w with
  | ok i =>
    obtain ⟨hwf, -⟩ := encodeOfDecodeZeroFillsIgnoredBits w i hd
    rw [canonicalWord_of_ok hd, disassemble_of_ok (decodeOfEncodeGivesTheCommandBack i hwf), disassemble_of_ok hd]
  | error e => rw [canonicalWord_of_error hd]

/-- How the line of a word of a class starts (30_encoding.md R70, R71). -/
def lineStart : CommandClass → List Char
  | .enc1 => "ENC1 ".toList
  | .enc2 => "ENC2 ".toList
  | .enc3 => "ENC3 ".toList
  | .dec => "DEC ".toList
  | .decl => "DECL ".toList
  | .rsvd => ".cmd 0x".toList

theorem printInstr_lineStart (i : Instr) : lineStart i.cls <+: printInstr i := by
  cases i <;> exact ⟨_, rfl⟩

theorem mnemonic_eq_lineStart (i : Instr) : i.mnemonic.toList ++ [' '] = lineStart i.cls := by
  cases i <;> rw [Instr.mnemonic] <;> rfl

theorem disassemble_lineStart (w : Word) : lineStart (classify w) <+: disassemble w := by
  cases hd : decode w with
  | ok i =>
    rw [classify_of_ok hd, disassemble_of_ok hd]
    exact printInstr_lineStart i
  | error e =>
    rw [classify_of_error hd, disassemble_of_error hd]
    exact ⟨_, rfl⟩

/-- No class's line starts as another's does, so that a line has the start of one class only. -/
theorem eq_of_lineStart_prefix (a b : CommandClass) (h : lineStart a <+: lineStart b) : a = b := by
  revert h
  cases a <;> cases b <;> decide

theorem classify_eq_iff_lineStart (w : Word) (a : CommandClass) : classify w = a ↔ lineStart a <+: disassemble w := by
  constructor
  · rintro rfl
    exact disassemble_lineStart w
  · intro h
    obtain h | h := List.prefix_or_prefix_of_prefix (disassemble_lineStart w) h
    · exact eq_of_lineStart_prefix _ _ h
    · exact (eq_of_lineStart_prefix _ _ h).symm

/-- Settles O7: what is printed is read back, and the start of a line tells the class of its word. -/
theorem disassembledLineAssemblesToTheZeroFilledWord : Obligations.DisassembledLineAssemblesToTheZeroFilledWord := by
  refine ⟨assembleLine_disassemble, disassemble_canonicalWord, fun w i hd => ⟨?_, ?_⟩, fun w => ?_⟩
  · rw [canonicalWord_of_ok hd, (encodeOfDecodeZeroFillsIgnoredBits w i hd).2]
  · rw [mnemonic_eq_lineStart, disassemble_of_ok hd]
    exact printInstr_lineStart i
  · have hline := classify_eq_iff_lineStart w
    refine ⟨hline .enc1, hline .enc2, hline .enc3, hline .dec, hline .decl, hline .rsvd, fun hc => ?_⟩
    obtain ⟨e, he⟩ := decode_rsvd hc
    rw [canonicalWord_of_error he, disassemble_of_error he]
    exact ⟨rfl, rfl⟩

end Sys2Proof.Machine
end

section
/-! PROOF. The encoder commands: the words that stand for them, their responses lane by lane, and where the padding
stands (40_encoder.md R83 to R88). -/

namespace Sys2Proof.Machine

/-- A word that matches an encoder's row under the mask of R65 has the class of that row's control byte. -/
theorem classify_of_match {w pattern : Word} (h : w &&& 0xFF00000000#40 = pattern) :
    classify w = classifyControl (controlByte pattern) := by
  have hctl : controlByte w &&& 0xFF#8 = controlByte pattern := controlByte_of_match h
  rw [classify, ← hctl, and_ff]

/-! ### The response written out byte by byte -/

theorem instrResponse_enc3 (b0 b1 b2 : Byte) : instrResponse (.enc3 b0 b1 b2) =
    0x03#8 ++ fwd (slice (b0 ++ b1 ++ b2) 0) ++ fwd (slice (b0 ++ b1 ++ b2) 1) ++ fwd (slice (b0 ++ b1 ++ b2) 2) ++
      fwd (slice (b0 ++ b1 ++ b2) 3) := by
  rw [instrResponse, encoderResponse_three, successWord_lanes, packBytes_three]
  rfl

theorem instrResponse_enc2 (b0 b1 : Byte) : instrResponse (.enc2 b0 b1) =
    0x02#8 ++ fwd (slice (b0 ++ b1 ++ 0x00#8) 0) ++ fwd (slice (b0 ++ b1 ++ 0x00#8) 1) ++
      fwd (slice (b0 ++ b1 ++ 0x00#8) 2) ++ padChar := by
  rw [instrResponse, encoderResponse_two, successWord_lanes, packBytes_two]
  rfl

theorem instrResponse_enc1 (b0 : Byte) : instrResponse (.enc1 b0) =
    0x01#8 ++ fwd (slice (b0 ++ 0x0000#16) 0) ++ fwd (slice (b0 ++ 0x0000#16) 1) ++ padChar ++ padChar := by
  rw [instrResponse, encoderResponse_one, successWord_lanes, packBytes_one]
  rfl

/-! ### The characters of a response -/

theorem encoderChar_of_le {n k : Nat} (h : k ≤ n) (acc : Acc) : encoderChar n acc k = fwd (slice acc k) := if_pos h

theorem encoderChar_of_lt {n k : Nat} (h : n < k) (acc : Acc) : encoderChar n acc k = padChar := if_neg (by omega)

theorem rspLane_encoderResponse (n : Nat) (b0 b1 b2 : Byte) {k : Nat} (hk : k < 4) :
    rspLane (encoderResponse n b0 b1 b2) k = encoderChar n (packBytes n b0 b1 b2) k := by
  obtain ⟨h0, h1, h2, h3⟩ := rspLane_successWord (BitVec.ofNat 2 n) (encoderChar n (packBytes n b0 b1 b2) 0)
    (encoderChar n (packBytes n b0 b1 b2) 1) (encoderChar n (packBytes n b0 b1 b2) 2)
    (encoderChar n (packBytes n b0 b1 b2) 3)
  match k, hk with
  | 0, _ => exact h0
  | 1, _ => exact h1
  | 2, _ => exact h2
  | 3, _ => exact h3

/-- The second slice of a one-byte group is the low two bits of the byte before four zero bits (R87). -/
theorem slice_packBytes_one (b0 : Byte) : slice (packBytes 1 b0 0#8 0#8) 1 = b0.extractLsb' 0 2 ++ 0#4 := by
  apply BitVec.eq_of_getLsbD_eq
  intro i hi
  simp only [slice, packBytes, BitVec.getLsbD_append, BitVec.getLsbD_extractLsb', hi]
  grind

/-- The third slice of a two-byte group is the low four bits of the second byte before two zero bits (R86). -/
theorem slice_packBytes_two (b0 b1 : Byte) : slice (packBytes 2 b0 b1 0#8) 2 = b1.extractLsb' 0 4 ++ 0#2 := by
  apply BitVec.eq_of_getLsbD_eq
  intro i hi
  simp only [slice, packBytes, BitVec.getLsbD_append, BitVec.getLsbD_extractLsb', hi]
  grind

/-- The alphabet characters of the indices whose low four bits are zero are `A`, `Q`, `g` and `w` (R87). -/
theorem fwd_append_zeros_mem : ∀ x : BitVec 2, fwd (x ++ 0#4) ∈ [0x41#8, 0x51#8, 0x67#8, 0x77#8] := by decide

/-! ### The commands -/

/-- Settles O13: all four characters are alphabet characters. -/
theorem enc3EncodesAFullGroup : Obligations.Enc3EncodesAFullGroup := by
  refine ⟨fun b0 b1 b2 s => ?_, fun w h => decode_of_enc3 (classify_of_match h), fun b0 b1 b2 k hk => ?_,
    by decide, by decide, by decide, by decide, by decide⟩
  · rw [exec_eq, instrResponse_enc3]
    rfl
  · rw [respond_enc3, rspLane_encoderResponse _ _ _ _ hk, encoderChar_of_le (by omega)]
    exact fwd_ne_padChar _

/-- Settles O14: the third slice holds what the second byte has left. -/
theorem enc2EncodesATwoByteGroup : Obligations.Enc2EncodesATwoByteGroup := by
  refine ⟨fun b0 b1 s => ?_, fun w h => decode_of_enc2 (classify_of_match h), fun b0 b1 => ?_,
    by decide, by decide, by decide, by decide⟩
  · rw [exec_eq, instrResponse_enc2]
    rfl
  · rw [respond_enc2, rspLane_encoderResponse _ _ _ _ (by decide), encoderChar_of_le (by decide), slice_packBytes_two]

/-- Settles O15: the second slice holds what the byte has left. -/
theorem enc1EncodesAOneByteGroup : Obligations.Enc1EncodesAOneByteGroup := by
  refine ⟨fun b0 s => ?_, fun w h => decode_of_enc1 (classify_of_match h), fun b0 => ?_,
    by decide, by decide, by decide, by decide⟩
  · rw [exec_eq, instrResponse_enc1]
    rfl
  · rw [respond_enc1, rspLane_encoderResponse _ _ _ _ (by decide), encoderChar_of_le (by decide), slice_packBytes_one]
    exact ⟨rfl, fwd_append_zeros_mem _⟩

/-! ### Padding -/

theorem groupChars_encoderResponse (n : Nat) (b0 b1 b2 : Byte) : groupChars (encoderResponse n b0 b1 b2) =
    (List.range 4).map (encoderChar n (packBytes n b0 b1 b2)) := groupChars_successWord _ _ _ _ _

theorem encoderChar_eq_padChar {n k : Nat} {acc : Acc} : encoderChar n acc k = padChar ↔ n < k := by
  constructor
  · intro h
    by_contra hk
    exact fwd_ne_padChar _ ((encoderChar_of_le (by omega) acc).symm.trans h)
  · exact fun h => encoderChar_of_lt h acc

/-- A group of n bytes has 3 − n places after its characters. -/
theorem countP_places_after : ∀ n ≤ 3, (List.range 4).countP (fun k => n < k) = 3 - n := by decide

/-- The padding of a response is what its group lacks of three bytes. -/
theorem count_padChar_encoderResponse {n : Nat} (hn : n ≤ 3) (b0 b1 b2 : Byte) :
    (groupChars (encoderResponse n b0 b1 b2)).count padChar = 3 - n := by
  rw [groupChars_encoderResponse, List.count, List.countP_map, ← countP_places_after n hn]
  exact List.countP_congr fun k _ => by simp [encoderChar_eq_padChar]

/-- Settles O16: the response of an encoder command is that of its n bytes, whose characters up to n are alphabet
characters and whose others are padding. -/
theorem encoderOutputIsAlphabetWithTrailingPadding : Obligations.EncoderOutputIsAlphabetWithTrailingPadding := by
  intro i n s hi
  obtain ⟨b0, b1, b2, hn, hr⟩ : ∃ b0 b1 b2, n ≤ 3 ∧ instrResponse i = encoderResponse n b0 b1 b2 := by
    obtain ⟨⟨b0, rfl⟩, rfl⟩ | ⟨⟨b0, b1, rfl⟩, rfl⟩ | ⟨⟨b0, b1, b2, rfl⟩, rfl⟩ := hi
    · exact ⟨b0, 0#8, 0#8, by decide, rfl⟩
    · exact ⟨b0, b1, 0#8, by decide, rfl⟩
    · exact ⟨b0, b1, b2, by decide, rfl⟩
  refine ⟨s.offerResponse (encoderResponse n b0 b1 b2), by rw [exec_eq, hr], rspErr_successWord _ _,
    rspCause_successWord _ _, rspZero_successWord _ _, rspCount_successWord _ _, fun k hk hkn => ?_,
    fun k hk hkn => ?_, count_padChar_encoderResponse hn b0 b1 b2⟩
  · exact ⟨_, (rspLane_encoderResponse n b0 b1 b2 hk).trans (encoderChar_of_le hkn _)⟩
  · exact (rspLane_encoderResponse n b0 b1 b2 hk).trans (encoderChar_of_lt hkn _)

end Sys2Proof.Machine
end

section
/-! PROOF. The decoder commands: the words that stand for them, and their answer check by check (41_decoder.md R106 to
R113). -/

namespace Sys2Proof.Machine

/-! ### What a decoder command answers -/

theorem exec_dec {text : List Byte} {r : Word} (h : decoderResponse false text = r) (s : State) :
    exec (.dec text) s = .next { s with rspValid := true, rspData := r } := by
  rw [exec_eq, instrResponse, h]
  rfl

theorem exec_decl {text : List Byte} {r : Word} (h : decoderResponse true text = r) (s : State) :
    exec (.decl text) s = .next { s with rspValid := true, rspData := r } := by
  rw [exec_eq, instrResponse, h]
  rfl

theorem failWord_len : failWord .len = 0x9000000000#40 := by decide

theorem failWord_pad : failWord .pad = 0xA000000000#40 := by decide

theorem failWord_char : failWord .char = 0xB000000000#40 := by decide

/-- The success response of a decoder command, with its accumulator as it stands (41_decoder.md R108). -/
theorem successWord_bytesOut (n : BitVec 2) (acc : Acc) :
    successWord n (bytesOut acc) = (0#6 ++ n : Byte) ++ 0x00#8 ++ acc := by
  rw [successWord_eq, bytesOut_eq]
  apply BitVec.eq_of_getLsbD_eq
  intro i hi
  simp only [BitVec.getLsbD_append]
  grind

theorem packSlices_two_zero (v0 v1 : Index) : packSlices v0 v1 0#6 0#6 = v0 ++ v1 ++ 0#12 := by
  apply BitVec.eq_of_getLsbD_eq
  intro i hi
  simp only [packSlices, BitVec.getLsbD_append]
  grind

/-- A group without `=` that holds a code outside the alphabet gives CHAR (41_decoder.md R104). -/
theorem decoderResponse_bad_of_mem (final : Bool) {c0 c1 c2 c3 : Byte} (hp : padChar ∉ [c0, c1, c2, c3])
    (hb : ∃ c ∈ [c0, c1, c2, c3], inv c = .bad) : decoderResponse final [c0, c1, c2, c3] = failWord .char := by
  simp only [List.mem_cons, List.not_mem_nil, or_false, not_or] at hp
  obtain ⟨h0, h1, h2, h3⟩ := hp
  exact decoderResponse_bad_zero final (Ne.symm h0) (Ne.symm h1) (Ne.symm h2) (Ne.symm h3) (by simpa using hb)

/-- Any other placement of `=` than the three of R102 is no legal pattern (41_decoder.md R102). -/
theorem padCount_of_illegal {c0 c1 c2 c3 : Byte} (h : (c0 == padChar, c1 == padChar, c2 == padChar, c3 == padChar) ∉
    [(false, false, false, false), (false, false, false, true), (false, false, true, true)]) :
    padCount [c0, c1, c2, c3] = none := by
  obtain ⟨-, h0, h1, h2, h3⟩ | ⟨-, h0, h1, h2, rfl⟩ | ⟨-, h0, h1, rfl, rfl⟩ | hnone := padCount_cases c0 c1 c2 c3
  · simp [h0, h1, h2, h3] at h
  · simp [h0, h1, h2] at h
  · simp [h0, h1] at h
  · exact hnone

/-- DEC takes no `=` (41_decoder.md R103). -/
theorem decoderResponse_of_mem_padChar {c0 c1 c2 c3 : Byte} (h : padChar ∈ [c0, c1, c2, c3]) :
    decoderResponse false [c0, c1, c2, c3] = failWord .pad := by
  refine decoderResponse_of_not_final fun hzero => ?_
  obtain ⟨-, h0, h1, h2, h3⟩ | ⟨hp, -⟩ | ⟨hp, -⟩ | hp := padCount_cases c0 c1 c2 c3
  · have hno : ∀ x ∈ [c0, c1, c2, c3], x ≠ padChar := by simp [h0, h1, h2, h3]
    exact hno padChar h rfl
  · simp [hp] at hzero
  · simp [hp] at hzero
  · simp [hp] at hzero

/-! ### The obligations about the commands -/

/-- Settles O17: the length, then `=` anywhere, then a code outside the alphabet, then three bytes. -/
theorem decDecodesANonFinalGroup : Obligations.DecDecodesANonFinalGroup := by
  refine ⟨fun text s hl => ?_, fun c0 c1 c2 c3 s hp => ?_, fun c0 c1 c2 c3 s hp hb => ?_,
    fun c0 c1 c2 c3 v0 v1 v2 v3 s h0 h1 h2 h3 => ?_, fun w h => ?_,
    by decide, by decide, by decide, by decide, by decide, by decide, by decide⟩
  · exact exec_dec ((decoderResponse_of_length false hl).trans failWord_len) s
  · exact exec_dec ((decoderResponse_of_mem_padChar hp).trans failWord_pad) s
  · exact exec_dec ((decoderResponse_bad_of_mem false hp hb).trans failWord_char) s
  · exact exec_dec ((decoderResponse_data false h0 h1 h2 h3).trans (successWord_bytesOut 3#2 _)) s
  · have hctl : controlByte w &&& 0xFC#8 = 0x40#8 := controlByte_of_match h
    obtain ⟨-, -, -, hdec, -⟩ := classifyControl_mask (controlByte w)
    exact decode_of_dec (hdec.2 hctl)

/-- Settles O18: the length, then the place of the `=`, then a code outside the alphabet, then the bits left over, for
each number of `=`. -/
theorem declDecodesTheFinalGroup : Obligations.DeclDecodesTheFinalGroup := by
  refine ⟨fun text s hl => ?_, fun c0 c1 c2 c3 s hp => ?_, fun c0 c1 c2 c3 s hp hb => ?_,
    fun c0 c1 c2 s hp hb => ?_, fun c0 c1 s hp hb => ?_, fun c0 c1 c2 c3 v0 v1 v2 v3 s h0 h1 h2 h3 => ?_,
    fun c0 c1 c2 v0 v1 v2 s h0 h1 h2 => ?_, fun c0 c1 v0 v1 s h0 h1 => ?_, fun w h => ?_,
    by decide, by decide, by decide, by decide, by decide, by decide, by decide, by decide, by decide, by decide,
    by decide, by decide, by decide, by decide, fun c0 c1 c2 c3 hhigh hp => ?_⟩
  · exact exec_decl ((decoderResponse_of_length true hl).trans failWord_len) s
  · exact exec_decl ((decoderResponse_of_placement true (padCount_of_illegal hp)).trans failWord_pad) s
  · exact exec_decl ((decoderResponse_bad_of_mem true hp hb).trans failWord_char) s
  · simp only [List.mem_cons, List.not_mem_nil, or_false, not_or] at hp
    obtain ⟨h0, h1, h2⟩ := hp
    have hr := decoderResponse_bad_one (Ne.symm h0) (Ne.symm h1) (Ne.symm h2) (by simpa using hb)
    exact exec_decl (hr.trans failWord_char) s
  · simp only [List.mem_cons, List.not_mem_nil, or_false, not_or] at hp
    obtain ⟨h0, h1⟩ := hp
    have hr := decoderResponse_bad_two (Ne.symm h0) (Ne.symm h1) (by simpa using hb)
    exact exec_decl (hr.trans failWord_char) s
  · exact exec_decl ((decoderResponse_data true h0 h1 h2 h3).trans (successWord_bytesOut 3#2 _)) s
  · refine exec_decl ((decoderResponse_one h0 h1 h2).trans ?_) s
    rw [failWord_pad, successWord_bytesOut]
    rfl
  · refine exec_decl ((decoderResponse_two h0 h1).trans ?_) s
    rw [failWord_pad, successWord_bytesOut, packSlices_two_zero]
    rfl
  · have hctl : controlByte w &&& 0xFC#8 = 0x48#8 := controlByte_of_match h
    obtain ⟨-, -, -, -, hdecl⟩ := classifyControl_mask (controlByte w)
    exact decode_of_decl (hdecl.2 hctl)
  · have hbad : inv c0 = .bad := inv_of_high hhigh
    rw [respond_decl4, ← failWord_char]
    refine decoderResponse_bad_of_mem true ?_ ⟨c0, List.mem_cons_self, hbad⟩
    rw [List.mem_cons, not_or]
    exact ⟨(ne_padChar_of_bad hbad).symm, hp⟩

/-- Settles O20: each of these codes is BAD, so the CHAR clauses of DEC and DECL speak of it. -/
theorem neverAcceptedCharactersGiveChar : Obligations.NeverAcceptedCharactersGiveChar := by
  intro c0 c1 c2 c3 x s hx
  have hbad : inv x = .bad := by
    rcases hx with hx | hx
    · exact (by decide : ∀ c ∈ [0x20#8, 0x09#8, 0x0D#8, 0x0A#8, 0x2D#8, 0x5F#8], inv c = .bad) x hx
    · exact inv_of_high hx
  obtain ⟨-, -, hdec, -⟩ := decDecodesANonFinalGroup
  obtain ⟨-, -, hdecl0, hdecl1, hdecl2, -⟩ := declDecodesTheFinalGroup
  exact ⟨fun hp hm => ⟨hdec c0 c1 c2 c3 s hp ⟨x, hm, hbad⟩, hdecl0 c0 c1 c2 c3 s hp ⟨x, hm, hbad⟩⟩,
    fun hp hm => hdecl1 c0 c1 c2 s hp ⟨x, hm, hbad⟩, fun hp hm => hdecl2 c0 c1 s hp ⟨x, hm, hbad⟩⟩

end Sys2Proof.Machine
end

section
/-! PROOF. A group that decodes is the encoding of the bytes it decodes to (41_decoder.md R107, R108, R112, R114): the
encoder's groups decode to their bytes, and no other group decodes, since the bits left over are zero. -/

namespace Sys2Proof.Machine

/-! ### An encoded group decodes to its bytes -/

theorem decoderResponse_enc1 (b0 : Byte) : decoderResponse true (groupChars (encoderResponse 1 b0 0#8 0#8)) =
    successWord 1#2 (0x00#8 ++ b0 ++ 0x00#8 ++ 0x00#8) := by
  rw [encoderResponse_one, groupChars_successWord, decoderResponse_two (inv_fwd _) (inv_fwd _),
    if_neg (not_not_intro (slice_one_low b0)), packSlices_one, bytesOut_append]

theorem decoderResponse_enc2 (b0 b1 : Byte) : decoderResponse true (groupChars (encoderResponse 2 b0 b1 0#8)) =
    successWord 2#2 (0x00#8 ++ b0 ++ b1 ++ 0x00#8) := by
  rw [encoderResponse_two, groupChars_successWord, decoderResponse_one (inv_fwd _) (inv_fwd _) (inv_fwd _),
    if_neg (not_not_intro (slice_two_low b0 b1)), packSlices_two, bytesOut_append]

theorem decoderResponse_enc3 (final : Bool) (b0 b1 b2 : Byte) :
    decoderResponse final (groupChars (encoderResponse 3 b0 b1 b2)) =
      successWord 3#2 (0x00#8 ++ b0 ++ b1 ++ b2) := by
  rw [encoderResponse_three, groupChars_successWord,
    decoderResponse_data final (inv_fwd _) (inv_fwd _) (inv_fwd _) (inv_fwd _), packSlices_three, bytesOut_append]

/-! ### A group that decodes is an encoded group -/

/-- The last byte of a group with one `=` is the bits that the third character leaves over (41_decoder.md R105). -/
theorem accByte_packSlices_one {v0 v1 v2 : Index} (h : v2.extractLsb' 0 2 = 0#2) :
    accByte (packSlices v0 v1 v2 0#6) 2 = 0x00#8 := by
  have hbyte : accByte (packSlices v0 v1 v2 0#6) 2 = v2.extractLsb' 0 2 ++ 0#6 := by
    apply BitVec.eq_of_getLsbD_eq
    intro i hi
    simp only [accByte, packSlices, BitVec.getLsbD_append, BitVec.getLsbD_extractLsb', hi]
    grind
  rw [hbyte, h]
  rfl

/-- The last two bytes of a group with two `=` are the bits that the second character leaves over (41_decoder.md
R105). -/
theorem accByte_packSlices_two {v0 v1 : Index} (h : v1.extractLsb' 0 4 = 0#4) :
    accByte (packSlices v0 v1 0#6 0#6) 1 = 0x00#8 ∧ accByte (packSlices v0 v1 0#6 0#6) 2 = 0x00#8 := by
  have hbyte : accByte (packSlices v0 v1 0#6 0#6) 1 = v1.extractLsb' 0 4 ++ 0#4 := by
    apply BitVec.eq_of_getLsbD_eq
    intro i hi
    simp only [accByte, packSlices, BitVec.getLsbD_append, BitVec.getLsbD_extractLsb', hi]
    grind
  rw [hbyte, h]
  exact ⟨rfl, accByte_packSlices_one rfl⟩

/-- The characters of an encoder's group, from the slices of its accumulator (40_encoder.md R81 to R83). -/
theorem groupChars_encoderResponse_of_packBytes {n : Nat} {b0 b1 b2 : Byte} {v0 v1 v2 v3 : Index}
    (h : packBytes n b0 b1 b2 = packSlices v0 v1 v2 v3) : groupChars (encoderResponse n b0 b1 b2) =
      [fwd v0, if 1 ≤ n then fwd v1 else padChar, if 2 ≤ n then fwd v2 else padChar,
        if 3 ≤ n then fwd v3 else padChar] := by
  obtain ⟨h0, h1, h2, h3⟩ := slice_packSlices v0 v1 v2 v3
  rw [groupChars_encoderResponse, h]
  simp [List.range_succ, encoderChar, h0, h1, h2, h3]

/-- Every group fails, or it is the encoding of three, two or one bytes and is answered with them
(41_decoder.md R106 to R108). Only a final group may hold fewer than three. -/
theorem decoderResponse_canonical (final : Bool) (text : List Byte) :
    rspErr (decoderResponse final text) = true ∨
    (∃ b0 b1 b2, text = groupChars (encoderResponse 3 b0 b1 b2) ∧
      decoderResponse final text = successWord 3#2 (0x00#8 ++ b0 ++ b1 ++ b2)) ∨
    (final = true ∧ ∃ b0 b1, text = groupChars (encoderResponse 2 b0 b1 0#8) ∧
      decoderResponse final text = successWord 2#2 (0x00#8 ++ b0 ++ b1 ++ 0x00#8)) ∨
    (final = true ∧ ∃ b0, text = groupChars (encoderResponse 1 b0 0#8 0#8) ∧
      decoderResponse final text = successWord 1#2 (0x00#8 ++ b0 ++ 0x00#8 ++ 0x00#8)) := by
  obtain ⟨c, he, -⟩ | ⟨c0, c1, c2, c3, v0, v1, v2, v3, rfl, h0, h1, h2, h3, hr⟩ |
    ⟨hfinal, c0, c1, c2, v0, v1, v2, rfl, h0, h1, h2, hv, hr⟩ | ⟨hfinal, c0, c1, v0, v1, rfl, h0, h1, hv, hr⟩ :=
    decoderResponse_cases final text
  · exact .inl (he ▸ rspErr_failWord c)
  · refine .inr (.inl ⟨_, _, _, ?_, hr⟩)
    have hacc := (packBytes_three _ _ _).trans (accByte_append (packSlices v0 v1 v2 v3))
    rw [groupChars_encoderResponse_of_packBytes hacc, ← fwd_of_inv h0, ← fwd_of_inv h1, ← fwd_of_inv h2,
      ← fwd_of_inv h3]
    rfl
  · have hzero := accByte_packSlices_one (v0 := v0) (v1 := v1) hv
    rw [bytesOut, hzero] at hr
    refine .inr (.inr (.inl ⟨hfinal, _, _, ?_, hr⟩))
    have hacc := accByte_append (packSlices v0 v1 v2 0#6)
    rw [hzero, ← packBytes_two _ _ 0#8] at hacc
    rw [groupChars_encoderResponse_of_packBytes hacc, ← fwd_of_inv h0, ← fwd_of_inv h1, ← fwd_of_inv h2]
    rfl
  · obtain ⟨hzero1, hzero2⟩ := accByte_packSlices_two (v0 := v0) hv
    rw [bytesOut, hzero1, hzero2] at hr
    refine .inr (.inr (.inr ⟨hfinal, _, ?_, hr⟩))
    have hacc : packBytes 1 (accByte (packSlices v0 v1 0#6 0#6) 0) 0#8 0#8 = packSlices v0 v1 0#6 0#6 := by
      have h := accByte_append (packSlices v0 v1 0#6 0#6)
      rwa [hzero1, hzero2] at h
    rw [groupChars_encoderResponse_of_packBytes hacc, ← fwd_of_inv h0, ← fwd_of_inv h1]
    rfl

/-! ### The obligations about groups -/

/-- The lanes of a success answer after its bytes are zero. -/
def ZeroTail (r : Word) : Prop :=
  rspLane r 0 = 0x00#8 ∧ ∀ k < 3, (rspCount r).toNat ≤ k → rspLane r (k + 1) = 0x00#8

theorem zeroTail_successWord {n : BitVec 2} {b0 b1 b2 : Byte} (h0 : n.toNat ≤ 0 → b0 = 0x00#8)
    (h1 : n.toNat ≤ 1 → b1 = 0x00#8) (h2 : n.toNat ≤ 2 → b2 = 0x00#8) :
    ZeroTail (successWord n (0x00#8 ++ b0 ++ b1 ++ b2)) := by
  obtain ⟨hl0, hl1, hl2, hl3⟩ := rspLane_successWord n 0x00#8 b0 b1 b2
  refine ⟨hl0, fun k hk hn => ?_⟩
  rw [rspCount_successWord] at hn
  match k, hk with
  | 0, _ => exact hl1.trans (h0 hn)
  | 1, _ => exact hl2.trans (h1 hn)
  | 2, _ => exact hl3.trans (h2 hn)

theorem zeroTail_decoderResponse {final : Bool} {text : List Byte} (h : rspErr (decoderResponse final text) = false) :
    ZeroTail (decoderResponse final text) := by
  obtain he | ⟨b0, b1, b2, -, hr⟩ | ⟨-, b0, b1, -, hr⟩ | ⟨-, b0, -, hr⟩ := decoderResponse_canonical final text
  · rw [h] at he
    cases he
  · exact hr ▸ zeroTail_successWord nofun nofun nofun
  · exact hr ▸ zeroTail_successWord nofun nofun fun _ => rfl
  · exact hr ▸ zeroTail_successWord nofun (fun _ => rfl) fun _ => rfl

/-- Settles O19: a group that decodes is that of its bytes, and the bytes past their count are zero. -/
theorem decoderSuccessHasAZeroTail : Obligations.DecoderSuccessHasAZeroTail := by
  intro text i s t hi hexec hok
  rw [exec_eq] at hexec
  cases hexec
  rcases hi with rfl | rfl
  · exact zeroTail_decoderResponse hok
  · exact zeroTail_decoderResponse hok

/-- Settles O21: the decoder's answer to a group of the encoder, for each number of bytes. -/
theorem groupRoundTrip : Obligations.GroupRoundTrip := by
  intro b0 b1 b2 s
  refine ⟨⟨_, rfl, ?_⟩, ⟨_, rfl, ?_⟩, ⟨_, rfl, ?_, ?_⟩⟩
  · exact exec_decl ((decoderResponse_enc1 b0).trans (successWord_lanes _ _ _ _ _)) _
  · exact exec_decl ((decoderResponse_enc2 b0 b1).trans (successWord_lanes _ _ _ _ _)) _
  · exact exec_decl ((decoderResponse_enc3 true b0 b1 b2).trans (successWord_lanes _ _ _ _ _)) _
  · exact exec_dec ((decoderResponse_enc3 false b0 b1 b2).trans (successWord_lanes _ _ _ _ _)) _

end Sys2Proof.Machine
end

section
/-! PROOF. DECODE of whole texts (42_stream.md R136 to R140): it succeeds on exactly the encoded texts, group by group,
and the texts that fail by what stands in them. -/

namespace Sys2Proof.Machine

/-! ### The text of ENCODE -/

theorem encodeBytes_full (b0 b1 b2 : Byte) : encodeBytes [b0, b1, b2] = groupChars (encoderResponse 3 b0 b1 b2) := by
  simp [encodeBytes_three]

theorem encodeBytes_eq_nil {d : List Byte} : encodeBytes d = [] ↔ d = [] := by
  match d with
  | [] => simp
  | [b0] => simp [encodeBytes_one, groupChars]
  | [b0, b1] => simp [encodeBytes_two, groupChars]
  | b0 :: b1 :: b2 :: rest => simp [encodeBytes_three, groupChars]

/-- An encoded text is made of groups of four. -/
theorem encodeBytes_length_mod (d : List Byte) : (encodeBytes d).length % 4 = 0 := by
  induction d using threes_induction with
  | h0 => rfl
  | h1 a => simp [encodeBytes_one, groupChars]
  | h2 a b => simp [encodeBytes_two, groupChars]
  | h3 a b c rest ih =>
    rw [encodeBytes_three, List.length_append]
    simp [groupChars, ih]

/-! ### The result of a text, from its groups -/

/-- The last group decodes (42_stream.md R136). -/
theorem decodeText_four_of_success {c0 c1 c2 c3 : Byte} {n : BitVec 2} {z b0 b1 b2 : Byte}
    (h : decoderResponse true [c0, c1, c2, c3] = successWord n (z ++ b0 ++ b1 ++ b2)) :
    decodeText [c0, c1, c2, c3] = .ok ([b0, b1, b2].take n.toNat) := by
  rw [decodeText_four, h, rspErr_successWord, groupBytes_successWord]
  rfl

/-- A group before the last decodes, and the rest decides (42_stream.md R136). -/
theorem decodeText_five_of_success {c0 c1 c2 c3 c4 : Byte} {rest : List Byte} {z b0 b1 b2 : Byte}
    (h4 : (c4 :: rest).length % 4 = 0)
    (h : decoderResponse false [c0, c1, c2, c3] = successWord 3#2 (z ++ b0 ++ b1 ++ b2)) :
    decodeText (c0 :: c1 :: c2 :: c3 :: c4 :: rest) = (decodeText (c4 :: rest)).map ([b0, b1, b2] ++ ·) := by
  rw [decodeText_five h4, h, rspErr_successWord, groupBytes_successWord]
  rfl

theorem someGroupFails_last_iff {text : List Byte} (h1 : 1 ≤ text.length) (h4 : text.length ≤ 4) :
    SomeGroupFails text ↔ rspErr (decoderResponse true text) = true := by
  simp [SomeGroupFails, decodeExpand_last h1 h4, respond_decl h1 h4]

/-- The last group of a text whose length is no multiple of 4 is short (42_stream.md R135). -/
theorem someGroupFails_of_length (t : List Byte) : t.length % 4 ≠ 0 → SomeGroupFails t := by
  have hshort {text : List Byte} (h1 : 1 ≤ text.length) (h4 : text.length < 4) : SomeGroupFails text := by
    rw [someGroupFails_last_iff h1 (by omega), decoderResponse_of_length true (by omega), rspErr_failWord]
  induction t using fours_induction with
  | h0 => simp
  | h1 a => exact fun _ => hshort (by simp) (by simp)
  | h2 a b => exact fun _ => hshort (by simp) (by simp)
  | h3 a b c => exact fun _ => hshort (by simp) (by simp)
  | h4 a b c d => simp
  | h5 a b c d e rest ih =>
    intro h
    exact someGroupFails_five.2 (.inr (ih (by simp at h ⊢; omega)))

/-- A length that is no multiple of 4 is the cause LEN (42_stream.md R137). -/
theorem decodeText_of_length {t : List Byte} (h : t.length % 4 ≠ 0) : decodeText t = .error 1#3 := by
  obtain ⟨r, hr, herr⟩ := someGroupFails_of_length t h
  have hany : (responsesTo (decodeExpand t)).any rspErr = true := List.any_eq_true.2 ⟨r, hr, herr⟩
  rw [decodeText, decodeCombine, if_neg (by omega), if_pos hany, wholeCause, if_pos h]
  rfl

/-! ### DECODE and ENCODE -/

/-- DECODE of ENCODE gives the bytes back (42_stream.md R138). -/
theorem decodeText_encodeBytes (d : List Byte) : decodeText (encodeBytes d) = .ok d := by
  induction d using threes_induction with
  | h0 => rfl
  | h1 a =>
    rw [encodeBytes_one]
    exact decodeText_four_of_success (decoderResponse_enc1 a)
  | h2 a b =>
    rw [encodeBytes_two]
    exact decodeText_four_of_success (decoderResponse_enc2 a b)
  | h3 a b c rest ih =>
    rw [encodeBytes_three]
    have h4 := encodeBytes_length_mod rest
    cases ht : encodeBytes rest with
    | nil =>
      rw [encodeBytes_eq_nil.1 ht]
      exact decodeText_four_of_success (decoderResponse_enc3 true a b c)
    | cons c4 cs =>
      rw [ht] at ih h4
      refine (decodeText_five_of_success h4 (decoderResponse_enc3 false a b c)).trans ?_
      rw [ih]
      rfl

/-- A text that decodes is the encoding of what it decodes to: each of its groups is (41_decoder.md R102, R105). -/
theorem eq_encodeBytes_of_decodeText (t : List Byte) : ∀ d, decodeText t = .ok d → t = encodeBytes d := by
  by_cases h4 : t.length % 4 = 0
  case neg =>
    intro d h
    rw [decodeText_of_length h4] at h
    cases h
  induction t using fours_induction with
  | h0 =>
    intro d h
    cases h
    rfl
  | h1 a => simp at h4
  | h2 a b => simp at h4
  | h3 a b c => simp at h4
  | h4 c0 c1 c2 c3 =>
    intro d h
    obtain he | ⟨b0, b1, b2, htext, hr⟩ | ⟨-, b0, b1, htext, hr⟩ | ⟨-, b0, htext, hr⟩ :=
      decoderResponse_canonical true [c0, c1, c2, c3]
    · rw [decodeText_four, if_pos he] at h
      cases h
    · cases (decodeText_four_of_success hr).symm.trans h
      exact htext.trans (encodeBytes_full b0 b1 b2).symm
    · cases (decodeText_four_of_success hr).symm.trans h
      exact htext.trans (encodeBytes_two b0 b1).symm
    · cases (decodeText_four_of_success hr).symm.trans h
      exact htext.trans (encodeBytes_one b0).symm
  | h5 c0 c1 c2 c3 c4 rest ih =>
    intro d h
    have hrest : (c4 :: rest).length % 4 = 0 := by simp at h4 ⊢; omega
    obtain he | ⟨b0, b1, b2, htext, hr⟩ | ⟨hfinal, -⟩ | ⟨hfinal, -⟩ := decoderResponse_canonical false [c0, c1, c2, c3]
    · rw [decodeText_five hrest, if_pos he] at h
      cases h
    · rw [decodeText_five_of_success hrest hr] at h
      cases hd : decodeText (c4 :: rest) with
      | error e =>
        rw [hd] at h
        cases h
      | ok d' =>
        rw [hd] at h
        cases h
        calc c0 :: c1 :: c2 :: c3 :: c4 :: rest
          _ = groupChars (encoderResponse 3 b0 b1 b2) ++ encodeBytes d' := by rw [← htext, ← ih hrest d' hd]; rfl
          _ = encodeBytes (b0 :: b1 :: b2 :: d') := (encodeBytes_three b0 b1 b2 d').symm
    · cases hfinal
    · cases hfinal

/-- Settles O50: an encoded text decodes to its bytes, and a text that decodes is encoded group by group. -/
theorem decodeAcceptsExactlyTheEncodedTexts : Obligations.DecodeAcceptsExactlyTheEncodedTexts :=
  fun t d => ⟨eq_encodeBytes_of_decodeText t d, fun h => h ▸ decodeText_encodeBytes d⟩

end Sys2Proof.Machine
end

section
/-! PROOF. Which whole texts fail, by what stands in them, and which succeed (42_stream.md R140). -/

namespace Sys2Proof.Machine

/-! ### `=` before the last two positions -/

/-- `=` in one of the first two places of a group is no legal pattern (41_decoder.md R102). -/
theorem rspErr_of_early_padChar (final : Bool) {c0 c1 c2 c3 : Byte} (h : c0 = padChar ∨ c1 = padChar) :
    rspErr (decoderResponse final [c0, c1, c2, c3]) = true := by
  rw [decoderResponse_of_placement final (padCount_of_illegal (by rcases h with rfl | rfl <;> simp)), rspErr_failWord]

/-- Clause (b) of R140: `=` in any group but the last, or in the first two places of the last. -/
theorem someGroupFails_of_early_padChar (t : List Byte) :
    ∀ k, k + 2 < t.length → t[k]? = some padChar → SomeGroupFails t := by
  induction t using fours_induction with
  | h0 => simp
  | h1 a => exact fun _ _ _ => someGroupFails_of_length [a] (by simp)
  | h2 a b => exact fun _ _ _ => someGroupFails_of_length [a, b] (by simp)
  | h3 a b c => exact fun _ _ _ => someGroupFails_of_length [a, b, c] (by simp)
  | h4 c0 c1 c2 c3 =>
    intro k hk hp
    rw [someGroupFails_last_iff (by simp) (by simp)]
    match k, hk with
    | 0, _ => exact rspErr_of_early_padChar true (.inl (Option.some.inj hp))
    | 1, _ => exact rspErr_of_early_padChar true (.inr (Option.some.inj hp))
  | h5 c0 c1 c2 c3 c4 rest ih =>
    intro k hk hp
    rw [someGroupFails_five]
    by_cases hfirst : k < 4
    · have hp : [c0, c1, c2, c3][k]? = some padChar := by
        rwa [← List.getElem?_append_left (l₂ := c4 :: rest) (by simpa using hfirst)]
      rw [decoderResponse_of_mem_padChar (List.mem_of_getElem? hp), rspErr_failWord]
      exact .inl rfl
    · obtain ⟨j, rfl⟩ : ∃ j, k = j + 4 := ⟨k - 4, by omega⟩
      exact .inr (ih j (by simp at hk ⊢; omega) hp)

/-! ### Bits left over before the padding -/

theorem rspErr_of_leftover_one {c0 c1 c2 : Byte} {v : Index} (hc : inv c2 = .idx v) (hv : v.extractLsb' 0 2 ≠ 0#2) :
    rspErr (decoderResponse true [c0, c1, c2, padChar]) = true := by
  obtain ⟨_, he, -⟩ | ⟨_, _, _, _, _, _, _, _, htext, -, -, -, h3, -⟩ | ⟨-, _, _, _, _, _, _, htext, -, -, h2, hz, -⟩ |
    ⟨-, _, _, _, _, htext, -⟩ := decoderResponse_cases true [c0, c1, c2, padChar]
  · rw [he, rspErr_failWord]
  · cases htext
    cases inv_padChar.symm.trans h3
  · cases htext
    cases hc.symm.trans h2
    exact absurd hz hv
  · cases htext
    cases inv_padChar.symm.trans hc

theorem rspErr_of_leftover_two {c0 c1 : Byte} {v : Index} (hc : inv c1 = .idx v) (hv : v.extractLsb' 0 4 ≠ 0#4) :
    rspErr (decoderResponse true [c0, c1, padChar, padChar]) = true := by
  obtain ⟨_, he, -⟩ | ⟨_, _, _, _, _, _, _, _, htext, -, -, -, h3, -⟩ | ⟨-, _, _, _, _, _, _, htext, -, -, h2, -⟩ |
    ⟨-, _, _, _, _, htext, -, h1, hz, -⟩ := decoderResponse_cases true [c0, c1, padChar, padChar]
  · rw [he, rspErr_failWord]
  · cases htext
    cases inv_padChar.symm.trans h3
  · cases htext
    cases inv_padChar.symm.trans h2
  · cases htext
    cases hc.symm.trans h1
    exact absurd hz hv

/-- A failed group fails every text that full groups before it make. -/
theorem someGroupFails_append {t : List Byte} (ht : SomeGroupFails t) (u : List Byte) :
    u.length % 4 = 0 → SomeGroupFails (u ++ t) := by
  induction u using fours_induction with
  | h0 => exact fun _ => ht
  | h1 a => simp
  | h2 a b => simp
  | h3 a b c => simp
  | h4 a b c d =>
    intro _
    cases t with
    | nil => simp [SomeGroupFails] at ht
    | cons e rest => exact someGroupFails_five.2 (.inr ht)
  | h5 a b c d e rest ih => exact fun h => someGroupFails_five.2 (.inr (ih (by simp at h ⊢; omega)))

/-- If every group of four that ends in `g` fails, every text that ends in `g` fails. -/
theorem someGroupFails_of_suffix {g : List Byte} (hg : 1 ≤ g.length) (hg4 : g.length ≤ 4)
    (h : ∀ a : List Byte, (a ++ g).length = 4 → rspErr (decoderResponse true (a ++ g)) = true) (u : List Byte) :
    SomeGroupFails (u ++ g) := by
  by_cases hlen : (u ++ g).length % 4 = 0
  · rw [List.length_append] at hlen
    have hdrop : (u.drop (u.length - (4 - g.length)) ++ g).length = 4 := by simp; omega
    have hlast := (someGroupFails_last_iff (by omega) (by omega)).2 (h _ hdrop)
    have hall := someGroupFails_append hlast (u.take (u.length - (4 - g.length))) (by simp; omega)
    rwa [← List.append_assoc, List.take_append_drop] at hall
  · exact someGroupFails_of_length _ hlen

/-! ### The texts that succeed -/

/-- Alphabet characters, whose last leaves no bits over before `p` trailing `=` (R140 (f)). -/
structure Canonical (body : List Byte) (p : Nat) : Prop where
  padding : p ≤ 2
  alphabet : ∀ c ∈ body, ∃ v, inv c = .idx v
  one : p = 1 → ∀ c v, body.getLast? = some c → inv c = .idx v → v.extractLsb' 0 2 = 0#2
  two : p = 2 → ∀ c v, body.getLast? = some c → inv c = .idx v → v.extractLsb' 0 4 = 0#4

/-- Clause (f) of R140, by the groups of `body`. -/
theorem decodeText_of_canonical {p : Nat} (body : List Byte) : Canonical body p → (body.length + p) % 4 = 0 →
    body.length + p ≠ 0 → ∃ d, decodeText (body ++ List.replicate p padChar) = .ok d ∧
      d.length + p = 3 * ((body.length + p) / 4) := by
  induction body using fours_induction with
  | h0 =>
    rintro ⟨hp, -, -, -⟩ h4 hne
    simp at h4 hne
    omega
  | h1 a =>
    rintro ⟨hp, -, -, -⟩ h4 -
    simp at h4
    omega
  | h2 a b =>
    rintro ⟨hp, halpha, -, hzero⟩ h4 -
    obtain rfl : p = 2 := by simp at h4; omega
    obtain ⟨v0, h0⟩ := halpha a (by simp)
    obtain ⟨v1, h1⟩ := halpha b (by simp)
    have hr := decoderResponse_two h0 h1
    rw [if_neg (not_not_intro (hzero rfl b v1 rfl h1))] at hr
    exact ⟨_, decodeText_four_of_success hr, by simp⟩
  | h3 a b c =>
    rintro ⟨hp, halpha, hzero, -⟩ h4 -
    obtain rfl : p = 1 := by simp at h4; omega
    obtain ⟨v0, h0⟩ := halpha a (by simp)
    obtain ⟨v1, h1⟩ := halpha b (by simp)
    obtain ⟨v2, h2⟩ := halpha c (by simp)
    have hr := decoderResponse_one h0 h1 h2
    rw [if_neg (not_not_intro (hzero rfl c v2 rfl h2))] at hr
    exact ⟨_, decodeText_four_of_success hr, by simp⟩
  | h4 a b c d =>
    rintro ⟨hp, halpha, -, -⟩ h4 -
    obtain rfl : p = 0 := by simp at h4; omega
    obtain ⟨v0, h0⟩ := halpha a (by simp)
    obtain ⟨v1, h1⟩ := halpha b (by simp)
    obtain ⟨v2, h2⟩ := halpha c (by simp)
    obtain ⟨v3, h3⟩ := halpha d (by simp)
    exact ⟨_, decodeText_four_of_success (decoderResponse_data true h0 h1 h2 h3), by simp⟩
  | h5 a b c d e rest ih =>
    rintro ⟨hp, halpha, hone, htwo⟩ h4 -
    have h4 : ((e :: rest).length + p) % 4 = 0 := by simp at h4 ⊢; omega
    have hrest : Canonical (e :: rest) p := by
      refine ⟨hp, fun x hx => halpha x (List.mem_of_mem_drop (i := 4) hx), ?_, ?_⟩
      · simpa using hone
      · simpa using htwo
    obtain ⟨bytes, hok, hlen⟩ := ih hrest h4 (by simp)
    obtain ⟨v0, h0⟩ := halpha a (by simp)
    obtain ⟨v1, h1⟩ := halpha b (by simp)
    obtain ⟨v2, h2⟩ := halpha c (by simp)
    obtain ⟨v3, h3⟩ := halpha d (by simp)
    have hfive := decodeText_five_of_success (c4 := e) (rest := rest ++ List.replicate p padChar)
      (by simpa [Nat.add_right_comm] using h4) (decoderResponse_data false h0 h1 h2 h3)
    refine ⟨_, hfive.trans (congrArg (Except.map _) hok), ?_⟩
    simp at hlen ⊢
    omega

/-- Settles O52: (c) is a case of (b), (d) speaks of the last group, and (f) goes group by group. -/
theorem wholeTextRejectionsAndAcceptance : Obligations.WholeTextRejectionsAndAcceptance := by
  intro t
  refine ⟨decodeText_of_length, ?_, ?_, ?_, ?_, fun hb => decodeText_error (someGroupFails_of_bad t hb), ?_⟩
  · rintro ⟨k, hk, hp⟩
    exact decodeText_error (someGroupFails_of_early_padChar t k hk hp)
  · rintro ⟨u, rfl⟩
    exact decodeText_error (someGroupFails_of_early_padChar _ u.length (by simp) (by simp))
  · rintro ⟨u, c, v, rfl, hc, hv⟩
    refine decodeText_error (someGroupFails_of_suffix (by simp) (by simp) (fun a ha => ?_) u)
    obtain ⟨c0, c1, rfl⟩ := List.length_eq_two.1 (by simpa using ha : a.length = 2)
    exact rspErr_of_leftover_one hc hv
  · rintro ⟨u, c, v, rfl, hc, hv⟩
    refine decodeText_error (someGroupFails_of_suffix (by simp) (by simp) (fun a ha => ?_) u)
    obtain ⟨c0, rfl⟩ := List.length_eq_one_iff.1 (by simpa using ha : a.length = 1)
    exact rspErr_of_leftover_two hc hv
  · rintro body p h4 rfl hp hne halpha hone htwo
    rw [List.length_append, List.length_replicate] at h4 ⊢
    obtain ⟨d, hok, hlen⟩ := decodeText_of_canonical body ⟨hp, halpha, hone, htwo⟩ h4
      (by simpa [← List.length_eq_zero_iff] using hne)
    exact ⟨d, hok, by omega⟩

end Sys2Proof.Machine
end

section
/-! PROOF. The expansions of ENCODE and DECODE command by command, and the text of ENCODE (42_stream.md R131 to R135): an
expansion drops a command where its argument drops a group, so each command is the first of what is left at its place. -/

namespace Sys2Proof.Machine

/-! ### The commands of ENCODE -/

/-- One command for each group of three, the last group perhaps short (42_stream.md R132). -/
theorem encodeExpand_length (d : List Byte) : (encodeExpand d).length = (d.length + 2) / 3 := by
  induction d using threes_induction with
  | h0 => rfl
  | h1 a => simp [encodeExpand]
  | h2 a b => simp [encodeExpand]
  | h3 a b c rest ih =>
    rw [encodeExpand_three, List.length_cons, ih]
    simp
    omega

theorem encodeExpand_drop (d : List Byte) (i : Nat) : encodeExpand (d.drop (3 * i)) = (encodeExpand d).drop i := by
  induction i generalizing d with
  | zero => rfl
  | succ i ih =>
    match d with
    | [] => simp
    | [_] => simp [encodeExpand, Nat.mul_succ]
    | [_, _] => simp [encodeExpand, Nat.mul_succ]
    | a :: b :: c :: rest => exact ih rest

/-- The command at place `i` is the first one of what is left after `i` groups. -/
theorem encodeExpand_getElem? (d : List Byte) (i : Nat) :
    (encodeExpand d)[i]? = (encodeExpand (d.drop (3 * i))).head? := by
  rw [encodeExpand_drop, List.head?_drop]

theorem encodeExpand_head_full {g : List Byte} (h : 3 ≤ g.length) :
    (encodeExpand g).head? = some (.enc3 (g.getD 0 0#8) (g.getD 1 0#8) (g.getD 2 0#8)) := by
  match g, h with
  | _ :: _ :: _ :: _, _ => rfl

theorem encodeExpand_head_two {g : List Byte} (h : g.length = 2) :
    (encodeExpand g).head? = some (.enc2 (g.getD 0 0#8) (g.getD 1 0#8)) := by
  match g, h with
  | [_, _], _ => rfl

theorem encodeExpand_head_one {g : List Byte} (h : g.length = 1) :
    (encodeExpand g).head? = some (.enc1 (g.getD 0 0#8)) := by
  match g, h with
  | [_], _ => rfl

theorem getD_drop (d : List Byte) (m k : Nat) : (d.drop m).getD k 0#8 = d.getD (m + k) 0#8 := by
  simp [List.getD_eq_getElem?_getD]

/-- Settles O45: what is left after `i` groups has three bytes or more before the last place, and `N mod 3` at it. -/
theorem encodeExpandsGroupByGroup : Obligations.EncodeExpandsGroupByGroup := by
  intro d
  refine ⟨encodeExpand_length d, fun i hi => ?_, fun h2 => ?_, fun h1 => ?_⟩
  · rw [encodeExpand_getElem?, encodeExpand_head_full (by rw [List.length_drop]; omega)]
    simp only [getD_drop, Nat.add_zero]
  · rw [encodeExpand_getElem?, encodeExpand_head_two (by rw [List.length_drop]; omega)]
    simp only [getD_drop, Nat.add_zero]
  · rw [encodeExpand_getElem?, encodeExpand_head_one (by rw [List.length_drop]; omega)]
    simp only [getD_drop, Nat.add_zero]

/-! ### The text of ENCODE -/

theorem encodeCombine_length (rs : List Word) : (encodeCombine rs).length = 4 * rs.length := by
  induction rs with
  | nil => rfl
  | cons r rs ih =>
    rw [encodeCombine, List.flatMap_cons, List.length_append, ← encodeCombine, ih, List.length_cons]
    simp [groupChars]
    omega

theorem encodeBytes_length (d : List Byte) : (encodeBytes d).length = 4 * ((d.length + 2) / 3) := by
  rw [encodeBytes, encodeCombine_length, responsesTo, List.length_map, encodeExpand_length]

/-- No command of ENCODE fails (42_stream.md R133). -/
theorem encodeExpand_succeeds (d : List Byte) : ∀ i ∈ encodeExpand d, rspErr (respond (encode i)) = false := by
  induction d using threes_induction with
  | h0 => simp
  | h1 a => simp [encodeExpand, respond_enc1, encoderResponse, rspErr_successWord]
  | h2 a b => simp [encodeExpand, respond_enc2, encoderResponse, rspErr_successWord]
  | h3 a b c rest ih =>
    rw [encodeExpand_three]
    refine List.forall_mem_cons.2 ⟨?_, ih⟩
    rw [respond_enc3, encoderResponse, rspErr_successWord]

/-- The text of ENCODE is alphabet characters and then the padding of its last group (42_stream.md R133). -/
theorem encodeBytes_padding (d : List Byte) : ∃ body,
    encodeBytes d = body ++ List.replicate ((3 - d.length % 3) % 3) padChar ∧ padChar ∉ body := by
  induction d using threes_induction with
  | h0 => exact ⟨[], rfl, List.not_mem_nil⟩
  | h1 a =>
    rw [encodeBytes_one, encoderResponse_one, groupChars_successWord]
    exact ⟨[_, _], rfl, by simp [(fwd_ne_padChar _).symm]⟩
  | h2 a b =>
    rw [encodeBytes_two, encoderResponse_two, groupChars_successWord]
    exact ⟨[_, _, _], rfl, by simp [(fwd_ne_padChar _).symm]⟩
  | h3 a b c rest ih =>
    obtain ⟨body, htext, hbody⟩ := ih
    have hmod : (a :: b :: c :: rest).length % 3 = rest.length % 3 := Nat.add_mod_right _ 3
    rw [encodeBytes_three, encoderResponse_three, groupChars_successWord, htext, hmod, ← List.append_assoc]
    exact ⟨_, rfl, by simp [(fwd_ne_padChar _).symm, hbody]⟩

/-- Settles O46: the text, its length and its padding, group by group. -/
theorem encodedTextLengthAndPadding : Obligations.EncodedTextLengthAndPadding := by
  intro d
  refine ⟨rfl, ?_, encodeBytes_length d, encodeBytes_padding d⟩
  rw [responsesTo, List.forall_mem_map]
  exact encodeExpand_succeeds d

/-! ### The commands of DECODE -/

/-- One command for each group of four, the last group perhaps short (42_stream.md R135). -/
theorem decodeExpand_length (t : List Byte) : (decodeExpand t).length = (t.length + 3) / 4 := by
  induction t using fours_induction with
  | h0 => rfl
  | h1 a => simp [decodeExpand]
  | h2 a b => simp [decodeExpand]
  | h3 a b c => simp [decodeExpand]
  | h4 a b c d => simp
  | h5 a b c d e rest ih =>
    rw [decodeExpand_five, List.length_cons, ih]
    simp
    omega

theorem decodeExpand_drop (t : List Byte) (i : Nat) : decodeExpand (t.drop (4 * i)) = (decodeExpand t).drop i := by
  induction i generalizing t with
  | zero => rfl
  | succ i ih =>
    by_cases hlong : t.length ≤ 4
    · rw [List.drop_eq_nil_of_le (by omega), List.drop_eq_nil_of_le (by rw [decodeExpand_length]; omega),
        decodeExpand_nil]
    · match t, Nat.lt_of_not_le hlong with
      | _ :: _ :: _ :: _ :: e :: rest, _ => exact ih (e :: rest)

/-- The command at place `i` is the first one of what is left after `i` groups. -/
theorem decodeExpand_getElem? (t : List Byte) (i : Nat) :
    (decodeExpand t)[i]? = (decodeExpand (t.drop (4 * i))).head? := by
  rw [decodeExpand_drop, List.head?_drop]

theorem decodeExpand_head_of_more {g : List Byte} (h : 5 ≤ g.length) :
    (decodeExpand g).head? = some (.dec (g.take 4)) := by
  match g, h with
  | _ :: _ :: _ :: _ :: _ :: _, _ => rfl

/-- Settles O47: what is left after `i` groups has five characters or more before the last place, and one to four at
it. -/
theorem decodeExpandsGroupByGroup : Obligations.DecodeExpandsGroupByGroup := by
  intro t
  refine ⟨decodeExpand_length t, fun i hi => ?_, fun hne => ?_⟩
  · rw [decodeExpand_getElem?, decodeExpand_head_of_more (by rw [List.length_drop]; omega)]
  · have hpos := List.length_pos_of_ne_nil hne
    rw [decodeExpand_getElem?, decodeExpand_last (by rw [List.length_drop]; omega) (by rw [List.length_drop]; omega),
      List.head?_cons]

end Sys2Proof.Machine
end

section
/-! PROOF. The results of ENCODE and DECODE (42_stream.md R136 to R139): the first cause, the round trip, and the source's
own vectors. -/

namespace Sys2Proof.Machine

/-! ### All or nothing -/

@[simp] theorem decodeText_nil : decodeText [] = .ok [] := rfl

theorem not_someGroupFails {t : List Byte} :
    ¬ SomeGroupFails t ↔ ∀ i ∈ decodeExpand t, rspErr (respond (encode i)) = false := by
  simp [SomeGroupFails, responsesTo]

/-- The first failing response gives the cause (42_stream.md R137). -/
theorem wholeCause_of_first {len : Nat} (hlen : len % 4 = 0) {pre post : List Word} {r : Word}
    (hpre : ∀ x ∈ pre, rspErr x = false) (hr : rspErr r = true) : wholeCause len (pre ++ r :: post) = rspCause r := by
  have hfirst : (pre ++ r :: post).find? rspErr = some r := by
    have hnone : pre.find? rspErr = none := List.find?_eq_none.2 fun x hx => by simp [hpre x hx]
    rw [List.find?_append, hnone, Option.none_or, List.find?_cons_of_pos hr]
  rw [wholeCause, if_neg (not_not_intro hlen), hfirst]

theorem decodeText_of_first_failure {t : List Byte} (hlen : t.length % 4 = 0) {pre post : List Word} {r : Word}
    (hrs : responsesTo (decodeExpand t) = pre ++ r :: post) (hpre : ∀ x ∈ pre, rspErr x = false)
    (hr : rspErr r = true) : decodeText t = .error (rspCause r) := by
  have hne : t.length ≠ 0 := by
    intro h
    simp [List.length_eq_zero_iff.1 h] at hrs
  have hany : (pre ++ r :: post).any rspErr = true := by simp [hr]
  rw [decodeText, decodeCombine, if_neg hne, hrs, if_pos hany, wholeCause_of_first hlen hpre hr]

/-- A text none of whose groups fails gives the bytes of all (42_stream.md R136). -/
theorem decodeText_of_no_failure {t : List Byte} (h : ∀ r ∈ responsesTo (decodeExpand t), rspErr r = false) :
    decodeText t = .ok ((responsesTo (decodeExpand t)).flatMap groupBytes) := by
  cases t with
  | nil => exact decodeText_nil
  | cons c t =>
    have hany : ¬ (responsesTo (decodeExpand (c :: t))).any rspErr = true := by simpa using h
    rw [decodeText, decodeCombine, if_neg (by simp), if_neg hany]

/-- Settles O48: the length, the first failure, or no failure. -/
theorem decodeIsAllOrNothingWithTheFirstCause : Obligations.DecodeIsAllOrNothingWithTheFirstCause := by
  refine fun t => ⟨?_, decodeText_of_length, ?_, decodeText_of_no_failure⟩
  · rintro rfl
    exact decodeText_nil
  · exact fun hlen pre r post hrs hpre hr => decodeText_of_first_failure hlen hrs hpre hr

/-! ### ENCODE, then DECODE -/

/-- No group of a text that decodes fails (42_stream.md R136). -/
theorem decodeExpand_succeeds {t d : List Byte} (h : decodeText t = .ok d) :
    ∀ i ∈ decodeExpand t, rspErr (respond (encode i)) = false := by
  refine not_someGroupFails.1 fun hfails => ?_
  obtain ⟨e, he⟩ := decodeText_error hfails
  cases h.symm.trans he

/-- Settles O49: the text of ENCODE decodes (`decodeText_encodeBytes`), so none of its groups fails. -/
theorem decodeOfEncodeRoundTrip : Obligations.DecodeOfEncodeRoundTrip :=
  fun d => ⟨decodeText_encodeBytes d, encodeBytes_length d, decodeExpand_succeeds (decodeText_encodeBytes d)⟩

/-- Settles O51: an empty sequence has no group. -/
theorem emptySequencesIssueNoCommand : Obligations.EmptySequencesIssueNoCommand :=
  ⟨encodeExpand_nil, decodeExpand_nil, encodeBytes_nil, decodeText_nil⟩

/-- Settles O54: the first vector is computed by ENCODE and decoded by the round trip; the unpadded text has six
characters. -/
theorem sourceVectors : Obligations.SourceVectors := by
  unfold Obligations.SourceVectors
  intro plain coded
  have hcoded : encodeBytes plain = coded := by decide
  exact ⟨hcoded, hcoded ▸ decodeText_encodeBytes plain, decodeText_of_length (by decide), encodeBytes_nil,
    decodeText_nil⟩

end Sys2Proof.Machine
end

section
/-! PROOF. Expansions and requesters on the block (42_stream.md R130, R142, 60_exceptions.md R159; log 1): every
outstanding command is answered in order (`everyCommandIsAnsweredInOrder`), so what the host makes of the order holds of
the responses. -/

namespace Sys2Proof.Machine

/-- A host whose outstanding commands are an expansion gets the responses of that expansion. -/
theorem expansion_is_answered {s : State} (hs : s.Inv) (hn : s.noReset) (hg : s.hostGoesOn) {is : List Instr}
    (hout : s.outstanding = is.map encode) :
    ∃ n t, State.Reaches n s t ∧ t.outstanding = [] ∧ t.received = s.received ++ responsesTo is := by
  obtain ⟨n, t, hreach, hempty, hreceived⟩ := everyCommandIsAnsweredInOrder s hs hn hg
  rw [hout, List.map_map] at hreceived
  exact ⟨n, t, hreach, hempty, hreceived⟩

/-- Settles O55: the responses are those of the expansion, of which ENCODE and DECODE are the combination. -/
theorem pseudoInstructionsRunOnTheBlock : Obligations.PseudoInstructionsRunOnTheBlock := by
  refine fun s hs hn hg => ⟨fun d hout => ?_, fun txt hout => ?_⟩
  · obtain ⟨n, t, hreach, hempty, hreceived⟩ := expansion_is_answered hs hn hg hout
    exact ⟨n, t, _, hreach, hempty, hreceived, rfl, rfl⟩
  · obtain ⟨n, t, hreach, hempty, hreceived⟩ := expansion_is_answered hs hn hg hout
    exact ⟨n, t, _, hreach, hempty, hreceived, rfl, rfl⟩

/-- An arbiter that gives the i-th response to the requester of the i-th command gives each requester the responses to its
own commands, in their order (60_exceptions.md R159). -/
theorem responses_of_requester (tagged : List (Nat × Word)) (id : Nat) :
    (((tagged.map (fun p => p.1)).zip (tagged.map (fun p => respond p.2))).filter (fun p => p.1 == id)).map
      (fun p => p.2) = (tagged.filter (fun p => p.1 == id)).map (fun p => respond p.2) := by
  rw [List.zip_map', List.filter_map, List.map_map]
  rfl

/-- Settles O43: the responses come in the order of the commands, so they split by requester as the commands do. -/
theorem interleavedRequestersGetTheirOwnResponses : Obligations.InterleavedRequestersGetTheirOwnResponses := by
  intro s tagged hs hn hg hout
  obtain ⟨n, t, hreach, -, hreceived⟩ := everyCommandIsAnsweredInOrder s hs hn hg
  rw [hout, List.map_map] at hreceived
  exact ⟨n, t, _, hreach, hreceived, List.length_map _, responses_of_requester tagged⟩

end Sys2Proof.Machine
end

section
/-! PROOF. Which commands report malformed input, and that no cycle ends in a trap (60_exceptions.md R150, R154,
70_reset_and_hazards.md R175). -/

namespace Sys2Proof.Machine

/-- An encoder command never fails (60_exceptions.md R150). -/
theorem rspErr_respond_encoder {w : Word} (hc : classify w = .enc1 ∨ classify w = .enc2 ∨ classify w = .enc3) :
    rspErr (respond w) = false := by
  obtain ⟨-, d, hr⟩ := respond_encoder hc
  rw [hr, rspErr_successWord]

/-- The cause of a reserved word is CMD (60_exceptions.md R151). -/
theorem rspCause_respond_rsvd {w : Word} (hc : classify w = .rsvd) : rspCause (respond w) = Cause.cmd.code := by
  obtain ⟨e, he⟩ := decode_rsvd hc
  rw [respond_of_error he]
  decide

/-- Settles O24: a word of no decoder class succeeds, as an encoder command, or is reserved and has cause CMD. -/
theorem onlyDecoderCommandsReportMalformedInput : Obligations.OnlyDecoderCommandsReportMalformedInput := by
  refine fun w => ⟨fun herr hcause => ?_, rspErr_respond_encoder⟩
  have hne : ¬ (classify w = .enc1 ∨ classify w = .enc2 ∨ classify w = .enc3) := fun hc =>
    Bool.false_ne_true ((rspErr_respond_encoder hc).symm.trans herr)
  cases hc : classify w with
  | enc1 => exact absurd (.inl hc) hne
  | enc2 => exact absurd (.inr (.inl hc)) hne
  | enc3 => exact absurd (.inr (.inr hc)) hne
  | dec => exact .inl rfl
  | decl => exact .inr rfl
  | rsvd =>
    rw [rspCause_respond_rsvd hc] at hcause
    exact absurd hcause (by decide)

/-- Settles O29: the state a cycle ends in is that of `step_eq_settled`, whatever the queue holds. -/
theorem everyCycleCompletes : Obligations.EveryCycleCompletes := fun s => ⟨s.settled.edge, step_eq_settled s⟩

end Sys2Proof.Machine
end

section
/-! PROOF. What a reset drops, and which responses the host gets since the last one (70_reset_and_hazards.md R170, R176):
no cycle adds to the responses received and due (`State.ledger`), and a reset takes those of the queue away. -/

namespace Sys2Proof.Machine

/-- After a reset only the commands the host has not transferred are outstanding. -/
theorem resetEdge_outstanding (s : State) : s.resetEdge.outstanding = s.pending ++ s.program := rfl

theorem settled_pending_program (s : State) :
    s.settled.pending ++ s.settled.program = s.pending ++ s.program := by
  simpa [State.outstanding] using settled_outstanding s

theorem eq_resetEdge_of_step {s t : State} (hr : s.nextMove.rst = true) (hst : step s = .next t) :
    t = s.settled.resetEdge := by
  rw [eq_edge_of_step hst, edge_of_reset (by simp [hr])]

theorem reset_step_outstanding {s t : State} (hr : s.nextMove.rst = true) (hst : step s = .next t) :
    t.outstanding = s.pending ++ s.program := by
  rw [eq_resetEdge_of_step hr hst, resetEdge_outstanding, settled_pending_program]

theorem reset_step_received {s t : State} (hr : s.nextMove.rst = true) (hst : step s = .next t) :
    t.received = s.received := by
  simp [eq_resetEdge_of_step hr hst, State.received]

/-- A cycle without reset keeps the ledger, and a reset takes the responses due to the queue off it. -/
theorem step_ledger_sublist {s t : State} (hs : s.Inv) (hst : step s = .next t) : t.ledger.Sublist s.ledger := by
  cases hr : s.nextMove.rst with
  | false => rw [step_ledger hs hr hst]
  | true =>
    rw [State.ledger, reset_step_received hr hst, reset_step_outstanding hr hst, State.ledger, State.outstanding,
      List.append_assoc]
    exact ((List.sublist_append_right s.q _).map respond).append_left _

/-- Every run, with resets or none, gives the host responses that were due at its start, in their order. -/
theorem reaches_received {n : Nat} {s t : State} (hs : s.Inv) (hreach : State.Reaches n s t) :
    ∃ xs, t.received = s.received ++ xs ∧ xs.Sublist (s.outstanding.map respond) := by
  have hkeeps : ∀ u v, (u.Inv ∧ u.ledger.Sublist s.ledger) → step u = .next v → v.Inv ∧ v.ledger.Sublist s.ledger :=
    fun u v ⟨hu, hl⟩ huv => ⟨everyCycleKeepsTheInvariant u v hu huv, (step_ledger_sublist hu huv).trans hl⟩
  have hledger := (reaches_keeps hkeeps ⟨hs, List.Sublist.refl _⟩ hreach).2
  obtain ⟨xs, hxs⟩ := received_mono_reaches hreach
  rw [State.ledger, State.ledger, ← hxs, List.append_assoc, List.append_sublist_append_left] at hledger
  exact ⟨xs, hxs.symm, (List.sublist_append_left _ _).trans hledger⟩

/-- Settles O31: the reset leaves only what the host has not transferred outstanding, and a run gives only responses that
are due (`reaches_received`). -/
theorem resetCycleDropsEverythingInFlight : Obligations.ResetCycleDropsEverythingInFlight := by
  intro s hr
  have hst := step_eq_settled s
  have hedge := eq_resetEdge_of_step hr hst
  refine ⟨s.settled.edge, hst, by simp [hedge], by simp [hedge], by simp [hedge], fun hs n u hreach => ?_⟩
  have hdue := reaches_received (everyCycleKeepsTheInvariant s _ hs hst) hreach
  rwa [reset_step_received hr hst, reset_step_outstanding hr hst] at hdue

/-- Settles O38: the history since the last reset is a run from the empty queue, and such a run keeps the sequence of
responses given and due. -/
theorem responsesMatchAcceptedCommandsInOrder : Obligations.ResponsesMatchAcceptedCommandsInOrder := fun s hs =>
  replay_responses (replay_sinceReset hs.behaviour) (reset_not_mem_sinceReset s.trace)

end Sys2Proof.Machine
end

section
/-! PROOF. Commands in consecutive cycles, and a host that never takes a response (70_reset_and_hazards.md R174, R175;
log 1). -/

namespace Sys2Proof.Machine

/-! ### Eager cycles -/

/-- The head's response is on offer before the edge, if a response already held is the head's. -/
theorem settled_of_head {s : State} {w : Word} {rest : List Word} (hr : s.nextMove.rst = false)
    (ha : s.nextMove.answer = true) (hq : s.q = w :: rest) (hheld : s.rspValid = true → s.rspData = respond w) :
    s.settled.rspValid = true ∧ s.settled.rspData = respond w := by
  cases hv : s.rspValid with
  | true =>
    obtain ⟨hvalid, hdata⟩ := settled_of_held hr hv
    exact ⟨hvalid, hdata.trans (hheld hv)⟩
  | false =>
    have hdrive : (s.drive s.nextMove).q = w :: rest := by rw [drive_q, hq]
    rw [State.settled, ha, answered_of_head (by simp [hr]) (by simp [hv]) hdrive]
    exact ⟨rfl, rfl⟩

/-- An eager cycle answers the head, and the next command is the head of a block that holds nothing. -/
theorem eager_step {s t : State} {w : Word} {rest : List Word} (hm : s.nextMove = Move.eager) (hq : s.q = w :: rest)
    (hheld : s.rspValid = true → s.rspData = respond w) (hst : step s = .next t) :
    t.received = s.received ++ [respond w] ∧ t.rspValid = false ∧ rest <+: t.q := by
  obtain rfl := eq_edge_of_step hst
  have hrst : s.settled.rst = false := by rw [settled_rst, hm]; rfl
  have htake : s.settled.rspReady = true := by rw [settled_rspReady, hm]; rfl
  obtain ⟨hvalid, hdata⟩ := settled_of_head (by rw [hm]; rfl) (by rw [hm]; rfl) hq hheld
  rw [edge_received_of_not_reset hrst, edge_rspValid_of_not_reset hrst, edge_q_of_not_reset hrst, hvalid, htake, hdata]
  simp [hq]

/-- Settles O44: one eager cycle for each of the two commands (`eager_step`). -/
theorem backToBackCommandsHaveNoHazard : Obligations.BackToBackCommandsHaveNoHazard := by
  intro s w1 w2 rest hmoves hhabit hq hheld
  have hfirst := step_eq_settled s
  have hsecond := step_eq_settled s.settled.edge
  have hm : s.nextMove = Move.eager := by rw [nextMove_of_moves_nil hmoves, hhabit]; rfl
  have hm' : s.settled.edge.nextMove = Move.eager := by
    rw [nextMove_of_moves_nil (by simp [hmoves]), edge_habit, settled_habit, hhabit]; rfl
  obtain ⟨hrec, hidle, more, hq'⟩ := eager_step hm hq hheld hfirst
  obtain ⟨hrec', -, -⟩ := eager_step hm' hq'.symm (by simp [hidle]) hsecond
  refine ⟨_, reaches_succ.2 ⟨_, hfirst, reaches_one _⟩, ?_⟩
  rw [hrec', hrec, List.append_assoc, List.singleton_append]

/-! ### A host that never takes -/

/-- Any number of cycles completes (60_exceptions.md R154). -/
theorem exists_reaches (n : Nat) (s : State) : ∃ t, State.Reaches n s t := by
  induction n generalizing s with
  | zero => exact ⟨s, reaches_zero.2 rfl⟩
  | succ n ih =>
    obtain ⟨t, ht⟩ := ih s.settled.edge
    exact ⟨t, reaches_succ.2 ⟨_, step_eq_settled s, ht⟩⟩

/-- A cycle in which the host takes nothing puts the commands it accepts behind the queue and does nothing else to it. -/
theorem step_of_not_taken {s t : State} (hr : s.nextMove.rst = false) (htake : s.nextMove.take = false)
    (hst : step s = .next t) : t.received = s.received ∧
      ∃ cs, t.q = s.q ++ cs ∧ acceptedOf t.trace = acceptedOf s.trace ++ cs := by
  obtain rfl := eq_edge_of_step hst
  have hrst : s.settled.rst = false := by simp [hr]
  have hkept : ¬ (s.settled.rspValid = true ∧ s.settled.rspReady = true) := by simp [htake]
  rw [edge_received_of_not_reset hrst, edge_q_of_not_reset hrst, edge_accepted_of_not_reset hrst, if_neg hkept,
    if_neg hkept, settled_received, settled_q, settled_trace]
  exact ⟨List.append_nil _, _, rfl, rfl⟩

/-- What stalls from `s` to `t`: no response is received, the queue loses nothing, and a full queue takes nothing while
the offer waits (70_reset_and_hazards.md R175). -/
structure State.StallsTo (s t : State) : Prop where
  received : t.received = s.received
  queue : s.q <+: t.q
  full : Config.qdepth ≤ s.q.length → t.q = s.q ∧ acceptedOf t.trace = acceptedOf s.trace ∧
    (s.cmdValid = true → t.cmdValid = true ∧ t.cmdData = s.cmdData)

theorem State.StallsTo.refl (s : State) : s.StallsTo s := ⟨rfl, List.prefix_rfl, fun _ => ⟨rfl, rfl, fun h => ⟨h, rfl⟩⟩⟩

theorem State.StallsTo.trans {s t u : State} (hst : s.StallsTo t) (htu : t.StallsTo u) : s.StallsTo u where
  received := htu.received.trans hst.received
  queue := hst.queue.trans htu.queue
  full hfull := by
    obtain ⟨hq, hacc, hoffer⟩ := hst.full hfull
    obtain ⟨hq', hacc', hoffer'⟩ := htu.full (by rwa [hq])
    refine ⟨hq'.trans hq, hacc'.trans hacc, fun hv => ?_⟩
    obtain ⟨hcv, hcd⟩ := hoffer hv
    exact (hoffer' hcv).imp_right fun hcd' => hcd'.trans hcd

theorem stallsTo_step {s t : State} (hr : s.nextMove.rst = false) (htake : s.nextMove.take = false)
    (hst : step s = .next t) : s.StallsTo t := by
  obtain ⟨hrec, cs, hq, hacc⟩ := step_of_not_taken hr htake hst
  refine ⟨hrec, ⟨cs, hq.symm⟩, fun hfull => ?_⟩
  have hsame := step_of_full hst hr hfull
  obtain rfl : cs = [] := List.append_right_eq_self.1 (hacc.symm.trans hsame)
  obtain ⟨-, hoffer⟩ := untransferredOffersAreHeldUnchanged s t hst hr
  refine ⟨by rw [hq, List.append_nil], hsame, fun hv => ?_⟩
  obtain ⟨hcv, hcd, -⟩ := hoffer hv hsame
  exact ⟨hcv, hcd⟩

/-- Settles O56: every cycle stalls, and so does every run. -/
theorem hostThatNeverTakesStallsTheBlock : Obligations.HostThatNeverTakesStallsTheBlock := by
  refine fun s hn hnever => ⟨fun n => exists_reaches n s, fun n t hreach => ?_⟩
  have hkeeps : ∀ u v, (u.noReset ∧ u.hostNeverTakes ∧ s.StallsTo u) → step u = .next v →
      v.noReset ∧ v.hostNeverTakes ∧ s.StallsTo v := by
    rintro u v ⟨hnu, hku, hsu⟩ huv
    have huv' := stallsTo_step (nextMove_of_noReset hnu) (nextMove_of_hostNeverTakes hku) huv
    exact ⟨noReset_step hnu huv, hostNeverTakes_step hku huv, hsu.trans huv'⟩
  obtain ⟨-, -, hrec, hq, hfull⟩ := reaches_keeps hkeeps ⟨hn, hnever, .refl s⟩ hreach
  exact ⟨hrec, hq, hfull⟩

end Sys2Proof.Machine
end
